-- ==== Sys2Proof/Word.lean ====
section
/-! DEFINITION. The words of the block: every value the spec treats as bits has one of these widths, and every value is unsigned (00_scope.md R7). -/

namespace Sys2Proof

/-- A bit position inside a byte: `bit_in_bank`, the bit index of SET_BIT, an IOCON bit position. -/
abbrev BitIndex := BitVec 3

/-- A logical pin index 0 to 15 (R11), the PIN field of a command and of a response. -/
abbrev PinIndex := BitVec 4

/-- A `u8` (R7): a register address, a register's value, a byte operand. -/
abbrev Byte := BitVec 8

/-- A `u16` (R7): the direction word, the W16 and DATA fields. -/
abbrev Word16 := BitVec 16

/-- One response word (30_encoding.md R65). -/
abbrev ResponseWord := BitVec 32

/-- One command word (30_encoding.md R61). -/
abbrev CommandWord := BitVec 64

end Sys2Proof
end

