-- ==== Sys2Proof/Config.lean ====
section
/-! DEFINITION. The parameters of 00_scope.md R6 (the type; their default values stand in Machine/Defaults.lean), the answers the bus environment may give, and the free values of the model. -/

namespace Sys2Proof

/-- The two addresses of one expander register: bank A and bank B (20_memory.md R43). -/
structure RegPair where
  a : Byte
  b : Byte
  deriving DecidableEq, Repr

/-- `REGADDR`, the address of each expander register the block uses (20_memory.md R43). -/
structure RegAddr where
  iodir   : RegPair
  gpinten : RegPair
  defval  : RegPair
  intcon  : RegPair
  iocon   : RegPair
  gppu    : RegPair
  intf    : RegPair
  intcap  : RegPair
  gpio    : RegPair
  olat    : RegPair
  deriving DecidableEq, Repr

/-- The five parameters of R6 that count pins, banks, bits and reset writes (log 19: what another value than R6's does). -/
structure Geometry where
  /-- `NPINS`, the number of pins (40_codec.md R80). -/
  npins       : Nat
  /-- `NBANKS`, the number of banks the pins lie in. -/
  nbanks      : Nat
  /-- `BANK_BITS`, the number of pins of a bank, which is where bank B begins in a 16-bit word (R80, R84, 20_memory.md R45). -/
  bankBits    : Nat
  /-- `DIR_BITS`, the number of bits the direction word holds (10_state.md R22). -/
  dirBits     : Nat
  /-- `RESET_WRITES`, the number of writes of the reset sequence (43_device.md R135). -/
  resetWrites : Nat
  deriving DecidableEq, Repr

/-- The parameters of R6, each one an argument of the model. -/
structure Config where
  /-- `NPINS`, `NBANKS`, `BANK_BITS`, `DIR_BITS`, `RESET_WRITES`. -/
  geometry          : Geometry
  /-- `REGADDR` (20_memory.md R43). -/
  regAddr           : RegAddr
  /-- `IOCON_MIRROR_BIT` (20_memory.md R54, R55). -/
  ioconMirrorBit    : BitIndex
  /-- `IOCON_INTPOL_BIT` (20_memory.md R54, R55). -/
  ioconIntpolBit    : BitIndex
  /-- `COMPARE_DEFAULT_BIT`: the INTCON bit that stands for Compare Default (R10). -/
  compareDefaultBit : Bool
  /-- `CLEAR_RETRIES` (42_interrupt.md R120). -/
  clearRetries      : Nat
  /-- `CLEAR_PAUSE_MS` (42_interrupt.md R120). -/
  clearPauseMs      : Nat
  /-- `DIR_USE_CACHE` (41_rmw.md R97). -/
  dirUseCache       : Bool
  /-- `ADDR_BITS`, the width of a device address (43_device.md R136). -/
  addrBits          : Nat
  deriving DecidableEq, Repr

/-- What the bus oracle answers to one SETADDR, READ or WRITE (20_memory.md R41, R42).  The byte of `ok` is what a READ
returns; SETADDR and WRITE do not look at it (log 18).  `silent` is the answer that never comes (70_reset_and_hazards.md
R173, 93_implementation_defined.md I5). -/
inductive BusAnswer where
  | ok (v : Byte)
  | fail
  | silent
  deriving DecidableEq, Repr, Inhabited

/-- FREE VALUE (log 4): the answer to the n-th transaction, where the state's script does not give it.  It has no body that a
proof can use: a statement about it holds for every oracle of R42. -/
opaque Config.freeAnswer : Nat → BusAnswer

/-- FREE VALUE (log 6): whether the timer ever answers the n-th PAUSE, where the state's timer script does not give it. -/
opaque Config.freePause : Nat → Bool

/-- FREE VALUE (log 7): what a read of `dir` gives in a state, reached by no run, that is constructed and holds no `dir`. -/
opaque Config.freeDir : Word16

/-- FREE VALUE (log 7): whether a read of `mirror` gives On in a state, reached by no run, that is constructed and holds no
`mirror`. -/
opaque Config.freeMirror : Bool

end Sys2Proof
end

