-- ==== Sys2Proof/Machine/Defaults.lean ====
section
/-! DEFINITION. The value column of 00_scope.md R6: the parameters this spec uses. -/

namespace Sys2Proof.Machine

/-- The default of `REGADDR`, row by row as the table of 20_memory.md R43 (UNVERIFIED: the spec gives it from general
knowledge, log 10). -/
def defaultRegAddr : RegAddr where
  iodir   := ⟨0x00, 0x01⟩
  gpinten := ⟨0x04, 0x05⟩
  defval  := ⟨0x06, 0x07⟩
  intcon  := ⟨0x08, 0x09⟩
  iocon   := ⟨0x0A, 0x0B⟩
  gppu    := ⟨0x0C, 0x0D⟩
  intf    := ⟨0x0E, 0x0F⟩
  intcap  := ⟨0x10, 0x11⟩
  gpio    := ⟨0x12, 0x13⟩
  olat    := ⟨0x14, 0x15⟩

/-- The counts of R6's value column. -/
def defaultGeometry : Geometry where
  npins       := 16
  nbanks      := 2
  bankBits    := 8
  dirBits     := 16
  resetWrites := 14

/-- The value column of R6 (UNVERIFIED for the values the spec gives from general knowledge, log 10). -/
def defaultConfig : Config where
  geometry          := defaultGeometry
  regAddr           := defaultRegAddr
  ioconMirrorBit    := 6
  ioconIntpolBit    := 1
  compareDefaultBit := true
  clearRetries      := 3
  clearPauseMs      := 500
  dirUseCache       := false
  addrBits          := 7

end Sys2Proof.Machine
end

