-- ==== Sys2Proof/Syntax.lean ====
section
/-! DEFINITION. The syntax of the commands: the two-valued operand types of 00_scope.md R10 and one constructor per row of the opcode table (30_encoding.md R62), each with the operands of R63. -/

namespace Sys2Proof

/-- A pin's direction (R10). -/
inductive Mode where
  | input
  | output
  deriving DecidableEq, Repr

/-- The State of R10 (a pin level, a pull-up setting, a polarity); named Level here because State is the machine's. -/
inductive Level where
  | high
  | low
  deriving DecidableEq, Repr

/-- A Feature (R10). -/
inductive Feature where
  | on
  | off
  deriving DecidableEq, Repr

/-- A bank of eight pins (R10, R12). -/
inductive Bank where
  | A
  | B
  deriving DecidableEq, Repr

/-- What a pin interrupt compares against (R10): DEFVAL or the previous pin value. -/
inductive Compare where
  | default
  | previous
  deriving DecidableEq, Repr

/-- One command.  A field that R63 marks must-be-zero is no operand; an Option operand is its present bit with its value. -/
inductive Instr where
  /-- PIN_DECODE (R80): an 8-bit logical index, which may be out of range. -/
  | pinDecode (index : Byte)
  /-- PIN_MODE (R82). -/
  | pinMode (pin : PinIndex) (word : Word16)
  /-- SET_BIT (R83). -/
  | setBit (byte : Byte) (index : BitIndex) (value : Bool)
  /-- MERGE16 (R84). -/
  | merge16 (pin : PinIndex) (word : Word16) (byte : Byte)
  /-- RMW (R96). -/
  | rmw (reg : Byte) (pin : PinIndex) (value : Bool) (known : Option Byte)
  /-- SET_DIRECTION (R97). -/
  | setDirection (pin : PinIndex) (mode : Mode)
  /-- SET_PULL_UP (R98). -/
  | setPullUp (pin : PinIndex) (level : Level)
  /-- WRITE_OUTPUT (R99). -/
  | writeOutput (pin : PinIndex) (level : Level)
  /-- READ_INPUT (R100). -/
  | readInput (pin : PinIndex)
  /-- READ_CURRENT (R101). -/
  | readCurrent (pin : PinIndex)
  /-- CFG_SYS_INT (R115). -/
  | cfgSysInt (mirror : Feature) (polarity : Level)
  /-- CFG_PIN_INT (R116). -/
  | cfgPinInt (pin : PinIndex) (enabled : Feature) (compare : Compare) (defaultValue : Option Level)
  /-- READ_INT_REG (R118). -/
  | readIntReg (bank : Bank)
  /-- READ_INT (R119). -/
  | readInt (bank : Bank)
  /-- CLEAR_INT (R120). -/
  | clearInt
  /-- RESET (R135). -/
  | reset
  /-- CONSTRUCT (R136): the device address as a byte, whose bits above ADDR_BITS must be zero (WellFormed). -/
  | construct (addr : Byte)
  deriving DecidableEq, Repr

end Sys2Proof
end

