-- ==== Sys2Proof/WellFormed.lean ====
section
/-! DEFINITION. Which commands an encoding can carry: the operand types hold every check of 30_encoding.md R63 but one, the width of CONSTRUCT's device address. -/

namespace Sys2Proof

/-- An instruction is well formed when every operand fits its field of R63.  Only the device address of CONSTRUCT has a type
wider than its field: it must fit `ADDR_BITS` bits (43_device.md R136: A8[7] = 0 at the default 7). -/
def wellFormed (c : Config) : Instr → Bool
  | .pinDecode _ => true
  | .pinMode _ _ => true
  | .setBit _ _ _ => true
  | .merge16 _ _ _ => true
  | .rmw _ _ _ _ => true
  | .setDirection _ _ => true
  | .setPullUp _ _ => true
  | .writeOutput _ _ => true
  | .readInput _ => true
  | .readCurrent _ => true
  | .cfgSysInt _ _ => true
  | .cfgPinInt _ _ _ _ => true
  | .readIntReg _ => true
  | .readInt _ => true
  | .clearInt => true
  | .reset => true
  | .construct addr => decide (addr.toNat < 2 ^ c.addrBits)

end Sys2Proof
end

