-- ==== Sys2Proof/Decode.lean ====
section
/-! DEFINITION. Bits to commands and back: the one-bit encodings of 00_scope.md R10, the fields of a command word (30_encoding.md R61), the opcode map (R62), the must-be-zero bits (R63), the decoder (R64, R67) and the encoder. -/

namespace Sys2Proof

/-! ### The one-bit encodings of R10 -/

/-- Mode: 1 Input, 0 Output. -/
def modeOfBit (b : Bool) : Mode := if b then .input else .output
def modeBit : Mode → Bool
  | .input => true
  | .output => false

/-- State: 1 High, 0 Low. -/
def levelOfBit (b : Bool) : Level := if b then .high else .low
def levelBit : Level → Bool
  | .high => true
  | .low => false

/-- Feature: 1 On, 0 Off. -/
def featureOfBit (b : Bool) : Feature := if b then .on else .off
def featureBit : Feature → Bool
  | .on => true
  | .off => false

/-- Bank: 1 B, 0 A. -/
def bankOfBit (b : Bool) : Bank := if b then .B else .A
def bankBit : Bank → Bool
  | .B => true
  | .A => false

/-- Compare in the command word: 1 Default, 0 Previous (R63 by way of R10; log 12). -/
def compareOfBit (b : Bool) : Compare := if b then .default else .previous
def compareBit : Compare → Bool
  | .default => true
  | .previous => false

/-! ### The fields of a command word (R61) -/

def opcField (w : CommandWord) : Byte := w.extractLsb' 0 8
def pinField (w : CommandWord) : PinIndex := w.extractLsb' 8 4
def f0Field (w : CommandWord) : Bool := w.getLsbD 12
def f1Field (w : CommandWord) : Bool := w.getLsbD 13
def f2Field (w : CommandWord) : Bool := w.getLsbD 14
def f3Field (w : CommandWord) : Bool := w.getLsbD 15
def a8Field (w : CommandWord) : Byte := w.extractLsb' 16 8
def b8Field (w : CommandWord) : Byte := w.extractLsb' 24 8
def w16Field (w : CommandWord) : Word16 := w.extractLsb' 32 16

/-- A command word from its fields, RSV zero (R61: RSV 63:48, W16 47:32, B8 31:24, A8 23:16, F3 to F0 15:12, PIN 11:8, OPC 7:0). -/
def packCommand (opc : Byte) (pin : PinIndex) (f0 f1 f2 f3 : Bool) (a8 b8 : Byte) (w16 : Word16) : CommandWord :=
  0#16 ++ w16 ++ b8 ++ a8 ++ BitVec.ofBool f3 ++ BitVec.ofBool f2 ++ BitVec.ofBool f1 ++ BitVec.ofBool f0 ++ pin ++ opc

/-! ### The opcode map (R62) -/

/-- The seventeen mnemonics of R62. -/
inductive Opcode where
  | pinDecode | pinMode | setBit | merge16 | rmw
  | setDirection | setPullUp | writeOutput | readInput | readCurrent
  | cfgSysInt | cfgPinInt | readIntReg | readInt | clearInt
  | reset | construct
  deriving DecidableEq, Repr

/-- The OPC value of each mnemonic (R62). -/
def opcodeByte : Opcode → Byte
  | .pinDecode    => 0x01
  | .pinMode      => 0x02
  | .setBit       => 0x03
  | .merge16      => 0x04
  | .rmw          => 0x05
  | .setDirection => 0x10
  | .setPullUp    => 0x11
  | .writeOutput  => 0x12
  | .readInput    => 0x13
  | .readCurrent  => 0x14
  | .cfgSysInt    => 0x20
  | .cfgPinInt    => 0x21
  | .readIntReg   => 0x22
  | .readInt      => 0x23
  | .clearInt     => 0x24
  | .reset        => 0x30
  | .construct    => 0x31

/-- The mnemonic an OPC value selects; every value not listed in R62 is illegal (R64). -/
def opcodeOfByte (b : Byte) : Option Opcode :=
  match b.toNat with
  | 0x01 => some .pinDecode
  | 0x02 => some .pinMode
  | 0x03 => some .setBit
  | 0x04 => some .merge16
  | 0x05 => some .rmw
  | 0x10 => some .setDirection
  | 0x11 => some .setPullUp
  | 0x12 => some .writeOutput
  | 0x13 => some .readInput
  | 0x14 => some .readCurrent
  | 0x20 => some .cfgSysInt
  | 0x21 => some .cfgPinInt
  | 0x22 => some .readIntReg
  | 0x23 => some .readInt
  | 0x24 => some .clearInt
  | 0x30 => some .reset
  | 0x31 => some .construct
  | _    => none

/-- The opcode of a command. -/
def opcodeOf : Instr → Opcode
  | .pinDecode _ => .pinDecode
  | .pinMode _ _ => .pinMode
  | .setBit _ _ _ => .setBit
  | .merge16 _ _ _ => .merge16
  | .rmw _ _ _ _ => .rmw
  | .setDirection _ _ => .setDirection
  | .setPullUp _ _ => .setPullUp
  | .writeOutput _ _ => .writeOutput
  | .readInput _ => .readInput
  | .readCurrent _ => .readCurrent
  | .cfgSysInt _ _ => .cfgSysInt
  | .cfgPinInt _ _ _ _ => .cfgPinInt
  | .readIntReg _ => .readIntReg
  | .readInt _ => .readInt
  | .clearInt => .clearInt
  | .reset => .reset
  | .construct _ => .construct

/-! ### The must-be-zero bits (R63) -/

/-- The bits of A8 that no device address of `ADDR_BITS` bits uses (R136: A8[7] at the default 7; log 11). -/
def addrZeroBits (c : Config) : Byte := 0xFF#8 <<< c.addrBits

/-- The must-be-zero bits of each row of R63: the row's `mask` in opcode_table.json without its OPC bits. -/
def mustBeZero (c : Config) : Opcode → CommandWord
  | .pinDecode    => 0xFFFFFFFFFF00FF00
  | .pinMode      => 0xFFFF0000FFFFF000
  | .setBit       => 0xFFFFFFFFFF00E800
  | .merge16      => 0xFFFF0000FF00F000
  | .rmw          => 0xFFFFFFFF0000A000
  | .setDirection => 0xFFFFFFFFFFFFE000
  | .setPullUp    => 0xFFFFFFFFFFFFE000
  | .writeOutput  => 0xFFFFFFFFFFFFE000
  | .readInput    => 0xFFFFFFFFFFFFF000
  | .readCurrent  => 0xFFFFFFFFFFFFF000
  | .cfgSysInt    => 0xFFFFFFFFFFFFCF00
  | .cfgPinInt    => 0xFFFFFFFFFFFF0000
  | .readIntReg   => 0xFFFFFFFFFFFFEF00
  | .readInt      => 0xFFFFFFFFFFFFEF00
  | .clearInt     => 0xFFFFFFFFFFFFFF00
  | .reset        => 0xFFFFFFFFFFFFFF00
  | .construct    => 0xFFFFFFFFFF00FF00 ||| (0#40 ++ addrZeroBits c ++ 0#16)

/-! ### Decoding (R64, R67) -/

/-- Why a command word is illegal (R64). -/
inductive Illegal where
  /-- Its OPC is not in R62. -/
  | unassignedOpcode
  /-- A bit that R63 marks must-be-zero for its OPC is 1. -/
  | mustBeZeroBitSet
  deriving DecidableEq, Repr

/-- What the decoder makes of a command word: a command, or a rejection by name. -/
inductive Decoded where
  | command (i : Instr)
  | illegal (why : Illegal)
  deriving DecidableEq, Repr

/-- The command of an opcode with the operands the word's fields carry (R63).  A field marked "ignored if F2 = 0" is not read
when F2 = 0 (log 13). -/
def operandsOf (w : CommandWord) : Opcode → Instr
  | .pinDecode    => .pinDecode (a8Field w)
  | .pinMode      => .pinMode (pinField w) (w16Field w)
  | .setBit       => .setBit (a8Field w) ((pinField w).extractLsb' 0 3) (f0Field w)
  | .merge16      => .merge16 (pinField w) (w16Field w) (a8Field w)
  | .rmw          => .rmw (a8Field w) (pinField w) (f0Field w) (if f2Field w then some (b8Field w) else none)
  | .setDirection => .setDirection (pinField w) (modeOfBit (f0Field w))
  | .setPullUp    => .setPullUp (pinField w) (levelOfBit (f0Field w))
  | .writeOutput  => .writeOutput (pinField w) (levelOfBit (f0Field w))
  | .readInput    => .readInput (pinField w)
  | .readCurrent  => .readCurrent (pinField w)
  | .cfgSysInt    => .cfgSysInt (featureOfBit (f0Field w)) (levelOfBit (f1Field w))
  | .cfgPinInt    =>
    .cfgPinInt (pinField w) (featureOfBit (f0Field w)) (compareOfBit (f1Field w))
      (if f2Field w then some (levelOfBit (f3Field w)) else none)
  | .readIntReg   => .readIntReg (bankOfBit (f0Field w))
  | .readInt      => .readInt (bankOfBit (f0Field w))
  | .clearInt     => .clearInt
  | .reset        => .reset
  | .construct    => .construct (a8Field w)

/-- The decoder: the opcode alone selects the command, then its must-be-zero bits are checked by one mask comparison (R63, R64,
R67).  Total on every 64-bit word. -/
def decode (c : Config) (w : CommandWord) : Decoded :=
  match opcodeOfByte (opcField w) with
  | none => .illegal .unassignedOpcode
  | some op => if w &&& mustBeZero c op = 0 then .command (operandsOf w op) else .illegal .mustBeZeroBitSet

/-! ### Encoding -/

/-- The command word of a command, its operands in the fields of R63, every other field zero (an absent Option's value is
written as 0, R63, R68). -/
def encode : Instr → CommandWord
  | .pinDecode index => packCommand 0x01 0 false false false false index 0 0
  | .pinMode pin word => packCommand 0x02 pin false false false false 0 0 word
  | .setBit byte index value => packCommand 0x03 (0#1 ++ index) value false false false byte 0 0
  | .merge16 pin word byte => packCommand 0x04 pin false false false false byte 0 word
  | .rmw reg pin value none => packCommand 0x05 pin value false false false reg 0 0
  | .rmw reg pin value (some known) => packCommand 0x05 pin value false true false reg known 0
  | .setDirection pin mode => packCommand 0x10 pin (modeBit mode) false false false 0 0 0
  | .setPullUp pin level => packCommand 0x11 pin (levelBit level) false false false 0 0 0
  | .writeOutput pin level => packCommand 0x12 pin (levelBit level) false false false 0 0 0
  | .readInput pin => packCommand 0x13 pin false false false false 0 0 0
  | .readCurrent pin => packCommand 0x14 pin false false false false 0 0 0
  | .cfgSysInt mirror polarity => packCommand 0x20 0 (featureBit mirror) (levelBit polarity) false false 0 0 0
  | .cfgPinInt pin enabled compare none =>
    packCommand 0x21 pin (featureBit enabled) (compareBit compare) false false 0 0 0
  | .cfgPinInt pin enabled compare (some value) =>
    packCommand 0x21 pin (featureBit enabled) (compareBit compare) true (levelBit value) 0 0 0
  | .readIntReg bank => packCommand 0x22 0 (bankBit bank) false false false 0 0 0
  | .readInt bank => packCommand 0x23 0 (bankBit bank) false false false 0 0 0
  | .clearInt => packCommand 0x24 0 false false false false 0 0 0
  | .reset => packCommand 0x30 0 false false false false 0 0 0
  | .construct addr => packCommand 0x31 0 false false false false addr 0 0

/-- The host's numbering of a table row's bits: a command is one 64-bit word, so bit k of `w` is bit k of the command word;
bits at and above `nbits` are 0.  The parameters are the defaults of R6. -/
def tableWord (nbits w : Nat) : CommandWord := BitVec.ofNat 64 (w % 2 ^ nbits)

/-- The instruction the decoder reads from a row's bits, none where it refuses them. -/
def decodeTableWord (nbits w : Nat) : Option Instr :=
  match decode Machine.defaultConfig (tableWord nbits w) with
  | .command i => some i
  | .illegal _ => none

end Sys2Proof
end

