-- ==== Sys2Proof/Machine/State.lean ====
section
/-! DEFINITION. The state of the block and what stands beside it on its ports: the block's registers (10_state.md), the command port, the bus oracle, the event trace and the response words; the state right after reset. -/

namespace Sys2Proof.Machine

/-- A request on the bus-master port (20_memory.md R41). -/
inductive Request where
  /-- SETADDR a; the address is a byte that fits ADDR_BITS bits (log 11). -/
  | setAddr (a : Byte)
  /-- READ r. -/
  | read (r : Byte)
  /-- WRITE r v. -/
  | write (r v : Byte)
  /-- PAUSE ms, carried to the environment's timer. -/
  | pause (ms : Nat)
  deriving DecidableEq, Repr

/-- The answer recorded with a request (20_memory.md R41). -/
inductive Answer where
  /-- ok v, to a READ. -/
  | value (v : Byte)
  /-- ok, to a SETADDR or a WRITE. -/
  | ok
  /-- fail. -/
  | fail
  /-- done, to a PAUSE. -/
  | done
  /-- No answer ever came (70_reset_and_hazards.md R173; log 5). -/
  | unanswered
  deriving DecidableEq, Repr

/-- One event of the trace: a transaction with its answer (20_memory.md R42). -/
structure Event where
  request : Request
  answer  : Answer
  deriving DecidableEq, Repr

/-- The bus oracle (20_memory.md R42), the model's own plain data (log 4): the answers the environment is known to give next,
oldest first, and how many answers have been drawn so far.  Past the script's end an answer is a free value. -/
structure Oracle where
  script : List BusAnswer
  drawn  : Nat
  deriving DecidableEq, Repr

/-- The environment's timer (20_memory.md R41, 70_reset_and_hazards.md R172), the model's own plain data (log 6): for the next
PAUSEs, oldest first, whether the timer ever answers, and how many PAUSEs it has been given so far.  Past the script's end it
is a free value. -/
structure Timer where
  script : List Bool
  drawn  : Nat
  deriving DecidableEq, Repr

/-- Why the machine could stop with a fault: it never does.  The block has no traps (60_exceptions.md R151), every command
that cannot complete answers a status, and a bus that never answers leaves a state with `busy = 1` in which nothing
happens (R173).  No meaning raises a fault; an empty type is safe (log 25). -/
inductive Fault where
  deriving DecidableEq, Repr

/-- Why the machine could refuse an instruction. -/
inductive Refusal where
  /-- Raised by an arm of `exec` whose instruction has no meaning yet, under the table's mnemonic; no arm does.  Safe. -/
  | notModelled (mnemonic : String)
  deriving DecidableEq, Repr

/-- The state.  `constructed`, `busy`, `dir` and `mirror` are the block's registers (10_state.md R22 to R26); `config` holds
the parameters of R6 (log 9); the rest stands on the block's ports. -/
structure State where
  /-- The parameters of 00_scope.md R6; no step writes them (log 9). -/
  config      : Config
  /-- 10_state.md R25. -/
  constructed : Bool
  /-- 10_state.md R26. -/
  busy        : Bool
  /-- The direction word, 10_state.md R22; `none` is the spec's "no value" of R23 and R31 (log 7). -/
  dir         : Option Word16
  /-- The mirror flag, 10_state.md R24; `none` is the spec's "no value" of R31 (log 7). -/
  mirror      : Option Feature
  /-- The command port: the words the host has still to present, first first (30_encoding.md R60; log 1). -/
  commands    : List CommandWord
  /-- Where bus answers come from (20_memory.md R42; log 4). -/
  oracle      : Oracle
  /-- Where the answers to PAUSE come from (20_memory.md R41; log 6). -/
  timer       : Timer
  /-- The event trace, oldest first (20_memory.md R41, R42); nothing reads it (log 15). -/
  trace       : List Event
  /-- The response port: every response word so far, oldest first (30_encoding.md R60; log 15). -/
  responses   : List ResponseWord
  deriving DecidableEq, Repr

/-- The machine right after reset (10_state.md R31, 70_reset_and_hazards.md R165).  The host has presented nothing, no bus
answer and no timer answer is known and none has been drawn (DESIGN CHOICE, log 8). -/
def State.reset : State where
  config      := defaultConfig
  constructed := false
  busy        := false
  dir         := none
  mirror      := none
  commands    := []
  oracle      := { script := [], drawn := 0 }
  timer       := { script := [], drawn := 0 }
  trace       := []
  responses   := []

end Sys2Proof.Machine
end

