-- ==== Sys2Proof/Machine/Flags.lean ====
section
/-! DEFINITION. The block has no condition codes and no flags (10_state.md R27); its only report of an outcome is the response word.  This file holds the status codes (60_exceptions.md R145) and the layout of the response word (30_encoding.md R65). -/

namespace Sys2Proof.Machine

/-- The statuses of R145. -/
inductive Status where
  | ok
  | transport
  | wrongMode
  | forcedClear
  | illegal
  | notConstructed
  deriving DecidableEq, Repr

/-- The STATUS codes (R65, R145). -/
def statusCode : Status → BitVec 4
  | .ok => 0
  | .transport => 1
  | .wrongMode => 2
  | .forcedClear => 3
  | .illegal => 4
  | .notConstructed => 5

/-- The fields of a response (R65); a field a command does not name is 0 (R66). -/
structure Response where
  status  : Status := .ok
  /-- SOME. -/
  present : Bool := false
  pin     : PinIndex := 0
  bit     : Bool := false
  data    : Word16 := 0
  deriving DecidableEq, Repr

/-- The response word of R65: DATA 31:16, zero 15:13, BIT 12, PIN 11:8, zero 7:5, SOME 4, STATUS 3:0. -/
def responseWord (r : Response) : ResponseWord :=
  r.data ++ 0#3 ++ BitVec.ofBool r.bit ++ r.pin ++ 0#3 ++ BitVec.ofBool r.present ++ statusCode r.status

/-- What a `raise` of R8 carries: the error kinds of R145 that a running command can end with. -/
inductive Error where
  | transport
  | wrongMode (pin : PinIndex)
  | forcedClear
  deriving DecidableEq, Repr

/-- The response of a raised error: WRONG_MODE records the offending pin, the others nothing (60_exceptions.md R146). -/
def errorResponse : Error → Response
  | .transport => { status := .transport }
  | .wrongMode pin => { status := .wrongMode, pin := pin }
  | .forcedClear => { status := .forcedClear }

/-- The response to an illegal word (R64). -/
def illegalResponse : Response := { status := .illegal }

/-- The response to a bus command before a successful CONSTRUCT (R148). -/
def notConstructedResponse : Response := { status := .notConstructed }

end Sys2Proof.Machine
end

