-- ==== Sys2Proof/Machine/Operands.lean ====
section
/-! DEFINITION. The pure functions of the codec (40_codec.md R80 to R84), the register map lookup REG (20_memory.md R43), the highest set bit (42_interrupt.md R117) and the order of pins (R81). -/

namespace Sys2Proof.Machine

/-- A Pin (00_scope.md R11). -/
structure Pin where
  index    : PinIndex
  bank     : Bank
  bit      : BitIndex
  highHalf : Bool
  deriving DecidableEq, Repr

/-- Is there a pin of this index (R80: `idx >= 16` is none)?  The pins are `NPINS` many and lie in the banks. -/
def pinExists (g : Geometry) (index : Nat) : Bool := decide (index < g.npins ∧ index < g.nbanks * g.bankBits)

/-- `pin(i)` (R80): bank A below `BANK_BITS`, bank B from there on; the bit in the bank is i or i - `BANK_BITS`; the high half
is bank B. -/
def pinOf (g : Geometry) (i : PinIndex) : Pin where
  index    := i
  bank     := if i.toNat < g.bankBits then .A else .B
  bit      := if i.toNat < g.bankBits then BitVec.ofNat 3 i.toNat else BitVec.ofNat 3 (i.toNat - g.bankBits)
  highHalf := decide (¬ i.toNat < g.bankBits)

/-- The order of pins (R81): by bank, A before B, then by bit. -/
def pinBefore (p q : Pin) : Bool :=
  match p.bank, q.bank with
  | .A, .B => true
  | .B, .A => false
  | .A, .A => decide (p.bit.toNat < q.bit.toNat)
  | .B, .B => decide (p.bit.toNat < q.bit.toNat)

/-- Pin equality (R81): by bank and bit. -/
def pinSame (p q : Pin) : Bool := decide (p.bank = q.bank) && decide (p.bit = q.bit)

/-- `mode_of(p, w)` (R82): bit `logical_index` of the word, 1 Input. -/
def modeOf (p : Pin) (w : Word16) : Mode := modeOfBit (w.getLsbD p.index.toNat)

/-- `setbit8(b, i, v)` (R83). -/
def setBit8 (b : Byte) (i : BitIndex) (v : Bool) : Byte :=
  let m : Byte := 1#8 <<< i.toNat
  if v then b ||| m else b &&& ~~~m

/-- `zext_16` of a byte (R7). -/
def zext16 (b : Byte) : Word16 := 0#8 ++ b

/-- The word whose low n bits are 1. -/
def lowBits (n : Nat) : Word16 := BitVec.ofNat 16 (2 ^ n - 1)

/-- `{b, a}` (20_memory.md R45): bank A in the low half, bank B in the high half, which begins at `BANK_BITS`. -/
def composeBanks (g : Geometry) (a b : Byte) : Word16 := (zext16 b <<< g.bankBits) ||| (zext16 a &&& lowBits g.bankBits)

/-- `merge16(p, w, b)` (R84): the byte goes into the half of the pin's bank, the other half of w is kept. -/
def merge16 (g : Geometry) (p : Pin) (w : Word16) (b : Byte) : Word16 :=
  if p.highHalf then (zext16 b <<< g.bankBits) ||| (w &&& lowBits g.bankBits)
  else (w &&& ~~~lowBits g.bankBits) ||| (zext16 b &&& lowBits g.bankBits)

/-- The byte of a 16-bit word that belongs to the pin's bank (R97: `p.high_half ? dir[15:8] : dir[7:0]`). -/
def bankByte (g : Geometry) (p : Pin) (w : Word16) : Byte :=
  ((if p.highHalf then w >>> g.bankBits else w) &&& lowBits g.bankBits).extractLsb' 0 8

/-- The word as the direction word holds it (10_state.md R22): its `DIR_BITS` low bits. -/
def dirWord (g : Geometry) (w : Word16) : Word16 := w &&& lowBits g.dirBits

/-- The search of R117 from bit n downward. -/
def highestFrom (b : Byte) : Nat → Nat
  | 0 => 0
  | n + 1 => if b.getLsbD (n + 1) then n + 1 else highestFrom b n

/-- `hsb(b)` (R117): the index of the highest set bit.  It is never applied to 0, where this function gives 0 (log 22). -/
def hsb (b : Byte) : BitIndex := BitVec.ofNat 3 (highestFrom b 7)

/-- The logical index of a bit of a bank (R118: `(bank == A) ? i : i + 8`). -/
def pinAt (g : Geometry) (bank : Bank) (i : BitIndex) : PinIndex :=
  match bank with
  | .A => BitVec.ofNat 4 i.toNat
  | .B => BitVec.ofNat 4 (i.toNat + g.bankBits)

/-- The names of the expander's registers (20_memory.md R43). -/
inductive RegName where
  | iodir | gpinten | defval | intcon | iocon | gppu | intf | intcap | gpio | olat
  deriving DecidableEq, Repr

/-- The address pair of a register. -/
def regPair (a : RegAddr) : RegName → RegPair
  | .iodir => a.iodir
  | .gpinten => a.gpinten
  | .defval => a.defval
  | .intcon => a.intcon
  | .iocon => a.iocon
  | .gppu => a.gppu
  | .intf => a.intf
  | .intcap => a.intcap
  | .gpio => a.gpio
  | .olat => a.olat

/-- `REG(NAME, bank)` (R43). -/
def reg (c : Config) (n : RegName) : Bank → Byte
  | .A => (regPair c.regAddr n).a
  | .B => (regPair c.regAddr n).b

/-- The INTCON bit of a Compare (R10, `COMPARE_DEFAULT_BIT`; log 12). -/
def intconBit (c : Config) : Compare → Bool
  | .default => c.compareDefaultBit
  | .previous => !c.compareDefaultBit

end Sys2Proof.Machine
end

