-- ==== Sys2Proof/Machine/Ops.lean ====
section
/-! DEFINITION. The named operations of the machine: drawing a bus answer, the primitives of 00_scope.md R8 (MemRead, MemWrite, SetAddr, Pause, raise, try and catch), the read-modify-write of 41_rmw.md R95, the block's registers, the command port, and how a command ends.  There is no trap (60_exceptions.md R151): `conclude` is the one place where an error is reported, in the response word. -/

namespace Sys2Proof.Machine

/-! ### The bus oracle (20_memory.md R42) -/

/-- The answer to the k-th transaction from now: the script's, and past its end a free value (log 4). -/
def Oracle.peek (o : Oracle) (k : Nat) : BusAnswer := o.script.getD k (Config.freeAnswer (o.drawn + k))

/-- The oracle after n more draws. -/
def Oracle.skip (o : Oracle) (n : Nat) : Oracle := { script := o.script.drop n, drawn := o.drawn + n }

/-- Does the timer ever answer the k-th PAUSE from now?  The script says so, and past its end a free value (log 6). -/
def Timer.peek (t : Timer) (k : Nat) : Bool := t.script.getD k (Config.freePause (t.drawn + k))

/-- The timer after n more PAUSEs. -/
def Timer.skip (t : Timer) (n : Nat) : Timer := { script := t.script.drop n, drawn := t.drawn + n }

/-! ### The block's registers -/

/-- A read of `dir` (10_state.md R22).  Where it holds no value (R23: no run reads it there) the result is a free value (log 7). -/
def State.dirValue (s : State) : Word16 := s.dir.getD Config.freeDir

/-- A read of `mirror` (10_state.md R24): is it On?  Where it holds no value the result is a free value (log 7). -/
def State.mirrorOn (s : State) : Bool :=
  match s.mirror with
  | some m => featureBit m
  | none => Config.freeMirror

/-! ### Sequential pseudocode (00_scope.md R8, R9) -/

/-- How a piece of pseudocode ends: with a value, by a `raise`, or not at all, because a transaction or a PAUSE has no answer. -/
inductive Ended (α : Type) where
  | value (a : α)
  | raised (e : Error)
  | waiting
  deriving DecidableEq, Repr

/-- A piece of pseudocode: from the state before it, how it ends and the state it leaves (what was done before a `raise`
stays done, 60_exceptions.md R147). -/
abbrev Bus (α : Type) := State → Ended α × State

/-- Do nothing and give a value. -/
def ret {α : Type} (a : α) : Bus α := fun s => (.value a, s)

/-- `raise E` (R8). -/
def raise {α : Type} (e : Error) : Bus α := fun s => (.raised e, s)

/-- One statement after another (R9): the second runs only where the first completed. -/
def andThen {α β : Type} (m : Bus α) (f : α → Bus β) : Bus β := fun s =>
  match m s with
  | (.value a, t) => f a t
  | (.raised e, t) => (.raised e, t)
  | (.waiting, t) => (.waiting, t)

/-- `try S catch T` (R8): a Transport raised by S is discarded and T runs. -/
def catchTransport {α : Type} (m handler : Bus α) : Bus α := fun s =>
  match m s with
  | (.raised .transport, t) => handler t
  | (.value a, t) => (.value a, t)
  | (.raised (.wrongMode p), t) => (.raised (.wrongMode p), t)
  | (.raised .forcedClear, t) => (.raised .forcedClear, t)
  | (.waiting, t) => (.waiting, t)

/-! ### The primitives (00_scope.md R8, 20_memory.md R41, R44) -/

/-- A transaction that takes one answer from the oracle and joins the trace. -/
def State.transact (s : State) (q : Request) (a : Answer) : State :=
  { s with oracle := s.oracle.skip 1, trace := s.trace ++ [⟨q, a⟩] }

/-- `MemRead(reg, 1)`. -/
def memRead (r : Byte) : Bus Byte := fun s =>
  match s.oracle.peek 0 with
  | .ok v => (.value v, s.transact (.read r) (.value v))
  | .fail => (.raised .transport, s.transact (.read r) .fail)
  | .silent => (.waiting, s.transact (.read r) .unanswered)

/-- A transaction that is answered ok or fail. -/
def command (q : Request) : Bus Unit := fun s =>
  match s.oracle.peek 0 with
  | .ok _ => (.value (), s.transact q .ok)
  | .fail => (.raised .transport, s.transact q .fail)
  | .silent => (.waiting, s.transact q .unanswered)

/-- `MemWrite(reg, 1, v)`. -/
def memWrite (r v : Byte) : Bus Unit := command (.write r v)

/-- `SetAddr(a)`. -/
def setAddr (a : Byte) : Bus Unit := command (.setAddr a)

/-- A PAUSE that takes one answer from the timer and joins the trace. -/
def State.pausing (s : State) (ms : Nat) (a : Answer) : State :=
  { s with timer := s.timer.skip 1, trace := s.trace ++ [⟨.pause ms, a⟩] }

/-- `Pause(ms)`: `done` is its only answer (R8, R41), and one that is never answered leaves the block stuck
(70_reset_and_hazards.md R173, 93_implementation_defined.md I5; log 6). -/
def pause (ms : Nat) : Bus Unit := fun s =>
  if s.timer.peek 0 then (.value (), s.pausing ms .done) else (.waiting, s.pausing ms .unanswered)

/-- `dir <- w`. -/
def writeDir (w : Word16) : Bus Unit := fun s => (.value (), { s with dir := some w })

/-- `mirror <- m`. -/
def writeMirror (m : Feature) : Bus Unit := fun s => (.value (), { s with mirror := some m })

/-- `constructed <- b`. -/
def writeConstructed (b : Bool) : Bus Unit := fun s => (.value (), { s with constructed := b })

/-- `rmw(reg, p, v, kc)` (41_rmw.md R95), the one mutation primitive: with a known current no read, then one write, even when
the byte does not change; the written byte is the result. -/
def rmw (r : Byte) (p : Pin) (v : Bool) (kc : Option Byte) : Bus Byte :=
  andThen (match kc with
    | some k => ret k
    | none => memRead r) fun cur =>
  andThen (memWrite r (setBit8 cur p.bit v)) fun _ =>
  ret (setBit8 cur p.bit v)

/-! ### The end of a command -/

/-- Emit a response word; `busy` returns to 0 (30_encoding.md R60). -/
def State.respond (s : State) (r : Response) : State :=
  { s with busy := false, responses := s.responses ++ [responseWord r] }

/-- The state a command leaves: its response, the response of its error (60_exceptions.md R146, R147), or, where the bus or the
timer never answered, no response and `busy = 1` for good (70_reset_and_hazards.md R173; log 5). -/
def conclude : Ended Response × State → State
  | (.value r, s) => s.respond r
  | (.raised e, s) => s.respond (errorResponse e)
  | (.waiting, s) => { s with busy := true }

/-- A command whose pseudocode runs whether or not the block is constructed. -/
def runCommand (m : Bus Response) (s : State) : Host.Outcome State Fault Refusal :=
  .next (conclude (m s))

/-- A command that passes the construction check first (60_exceptions.md R148): no bus transaction and no state change where
`constructed = 0`. -/
def runConstructed (m : Bus Response) (s : State) : Host.Outcome State Fault Refusal :=
  .next (if s.constructed then conclude (m s) else s.respond notConstructedResponse)

/-! ### The command port (30_encoding.md R60, 10_state.md R26) -/

/-- Accept the next command word: only where `busy = 0` and the host presents one; `busy` becomes 1 (log 1). -/
def State.accept (s : State) : Option (CommandWord × State) :=
  match s.busy, s.commands with
  | false, w :: rest => some (w, { s with busy := true, commands := rest })
  | false, [] => none
  | true, _ => none

/-- The answer to an illegal word: no bus transaction and no state change (R64). -/
def State.answerIllegal (s : State) : State := s.respond illegalResponse

/-- The host presents `w` next, to a block that is idle (log 2). -/
def State.present (s : State) (w : CommandWord) : State := { s with busy := false, commands := w :: s.commands }

/-- Block reset by the reset input (70_reset_and_hazards.md R165): the block's own registers take the values of R31; no bus
transaction, and what the host and the environment hold is theirs (log 16). -/
def State.blockReset (s : State) : State :=
  { s with constructed := false, busy := false, dir := none, mirror := none }

end Sys2Proof.Machine
end

