-- ==== Sys2Proof/Machine/Codec.lean ====
section
/-! DEFINITION. The pure commands (40_codec.md): they read no block state, write none, issue no bus transaction and run whether or not the block is constructed. -/

namespace Sys2Proof.Machine

/-- DATA of PIN_DECODE (R80, R66): bit_in_bank in 2:0, high_half in 3, bank in 4. -/
def pinData (p : Pin) : Word16 :=
  0#11 ++ BitVec.ofBool (bankBit p.bank) ++ BitVec.ofBool p.highHalf ++ p.bit

/-- PIN_DECODE (R80): an index of no pin (16 or more) gives SOME = 0, which is not an error. -/
def execPinDecode (index : Byte) (s : State) : Host.Outcome State Fault Refusal :=
  runCommand (ret (if pinExists s.config.geometry index.toNat then
      { present := true, pin := index.extractLsb' 0 4,
        data := pinData (pinOf s.config.geometry (index.extractLsb' 0 4)) }
    else { })) s

/-- PIN_MODE (R82): the mode bit of the pin in the operand word. -/
def execPinMode (pin : PinIndex) (word : Word16) (s : State) : Host.Outcome State Fault Refusal :=
  runCommand (ret { pin := pin, bit := modeBit (modeOf (pinOf s.config.geometry pin) word) }) s

/-- SET_BIT (R83). -/
def execSetBit (byte : Byte) (index : BitIndex) (value : Bool) (s : State) : Host.Outcome State Fault Refusal :=
  runCommand (ret { data := zext16 (setBit8 byte index value) }) s

/-- MERGE16 (R84). -/
def execMerge16 (pin : PinIndex) (word : Word16) (byte : Byte) (s : State) : Host.Outcome State Fault Refusal :=
  runCommand (ret { data := merge16 s.config.geometry (pinOf s.config.geometry pin) word byte }) s

end Sys2Proof.Machine
end

