-- ==== Sys2Proof/Machine/Device.lean ====
section
/-! DEFINITION. The device commands (43_device.md): the reset sequence and construction. -/

namespace Sys2Proof.Machine

/-- The writes of `reset_seq()` in order, `RESET_WRITES` of the fourteen (R135). -/
def resetWrites (c : Config) : List (Byte × Byte) :=
  List.take c.geometry.resetWrites
  [(reg c .iodir .A, 0xFF), (reg c .iodir .B, 0xFF),
   (reg c .gpio .A, 0x00), (reg c .gpio .B, 0x00),
   (reg c .gppu .A, 0x00), (reg c .gppu .B, 0x00),
   (reg c .iocon .A, 0x00), (reg c .iocon .B, 0x00),
   (reg c .gpinten .A, 0x00), (reg c .gpinten .B, 0x00),
   (reg c .intcon .A, 0x00), (reg c .intcon .B, 0x00),
   (reg c .defval .A, 0x00), (reg c .defval .B, 0x00)]

/-- Writes one after another, up to the first that fails. -/
def writeAll : List (Byte × Byte) → Bus Unit
  | [] => ret ()
  | (r, v) :: rest => andThen (memWrite r v) fun _ => writeAll rest

/-- `reset_seq()` (R135): the writes, then a read of both GPIO registers whose values are discarded. -/
def resetSeq (c : Config) : Bus Unit :=
  andThen (writeAll (resetWrites c)) fun _ =>
  andThen (memRead (reg c .gpio .A)) fun _ =>
  andThen (memRead (reg c .gpio .B)) fun _ =>
  ret ()

/-- RESET (R135): `dir` and `mirror` keep their values. -/
def execReset (s : State) : Host.Outcome State Fault Refusal :=
  runConstructed (andThen (resetSeq s.config) fun _ => ret { }) s

/-- CONSTRUCT (R136): `constructed` goes to 0 at once; `dir` comes from the reads made before the reset sequence. -/
def construct (c : Config) (addr : Byte) : Bus Response :=
  andThen (writeConstructed false) fun _ =>
  andThen (setAddr addr) fun _ =>
  andThen (memRead (reg c .iodir .A)) fun a =>
  andThen (memRead (reg c .iodir .B)) fun b =>
  andThen (resetSeq c) fun _ =>
  andThen (writeDir (dirWord c.geometry (composeBanks c.geometry a b))) fun _ =>
  andThen (writeMirror .off) fun _ =>
  andThen (writeConstructed true) fun _ =>
  ret { }

/-- CONSTRUCT is exempt from the construction check (R148). -/
def execConstruct (addr : Byte) (s : State) : Host.Outcome State Fault Refusal :=
  runCommand (construct s.config addr) s

end Sys2Proof.Machine
end

