-- ==== Sys2Proof/Machine/Interrupt.lean ====
section
/-! DEFINITION. Interrupt configuration and the interrupt-line decoder (42_interrupt.md).  Every command first passes the construction check (R148). -/

namespace Sys2Proof.Machine

/-- CFG_SYS_INT (R115): both IOCON bits in one read and one write; `mirror` is written only after the write succeeded. -/
def cfgSysInt (c : Config) (mirror : Feature) (polarity : Level) : Bus Response :=
  andThen (memRead (reg c .iocon .A)) fun v =>
  andThen (memWrite (reg c .iocon .A)
    (setBit8 (setBit8 v c.ioconMirrorBit (featureBit mirror)) c.ioconIntpolBit (levelBit polarity))) fun _ =>
  andThen (writeMirror mirror) fun _ =>
  ret { }

def execCfgSysInt (mirror : Feature) (polarity : Level) (s : State) : Host.Outcome State Fault Refusal :=
  runConstructed (cfgSysInt s.config mirror polarity) s

/-- CFG_PIN_INT (R116): raises WrongMode for a pin cached as Input; then GPINTEN, INTCON and DEFVAL, one RMW each; an absent
default value is Low. -/
def cfgPinInt (c : Config) (dir : Word16) (p : Pin) (enabled : Feature) (compare : Compare) (dv : Option Level) :
    Bus Response :=
  match modeOf p dir with
  | .input => raise (.wrongMode p.index)
  | .output =>
    andThen (rmw (reg c .gpinten p.bank) p (featureBit enabled) none) fun _ =>
    andThen (rmw (reg c .intcon p.bank) p (intconBit c compare) none) fun _ =>
    andThen (rmw (reg c .defval p.bank) p (levelBit (dv.getD .low)) none) fun _ =>
    ret { }

def execCfgPinInt (pin : PinIndex) (enabled : Feature) (compare : Compare) (defaultValue : Option Level) (s : State) :
    Host.Outcome State Fault Refusal :=
  runConstructed (cfgPinInt s.config s.dirValue (pinOf s.config.geometry pin) enabled compare defaultValue) s

/-- `read_int_reg(bank)` (R118): no INTCAP read where INTF is 0; else the highest flagged pin and its captured state. -/
def readIntReg (c : Config) (bank : Bank) : Bus (Option (PinIndex × Bool)) :=
  andThen (memRead (reg c .intf bank)) fun f =>
  if f = 0 then ret none
  else
    andThen (memRead (reg c .intcap bank)) fun v =>
    ret (some (pinAt c.geometry bank (hsb f), v.getLsbD (hsb f).toNat))

/-- The response to an interrupt lookup (R118, R119). -/
def interruptResponse : Option (PinIndex × Bool) → Response
  | some (pin, state) => { present := true, pin := pin, bit := state }
  | none => { }

/-- READ_INT_REG (R118). -/
def execReadIntReg (bank : Bank) (s : State) : Host.Outcome State Fault Refusal :=
  runConstructed (andThen (readIntReg s.config bank) fun r => ret (interruptResponse r)) s

/-- READ_INT (R119): with mirror On bank A first and, where it has none, bank B with its transport errors swallowed; with
mirror Off the requested bank. -/
def readInt (c : Config) (mirrored : Bool) (bank : Bank) : Bus Response :=
  andThen
    (if mirrored then
      andThen (readIntReg c .A) fun r =>
      match r with
      | some found => ret (some found)
      | none => catchTransport (readIntReg c .B) (ret none)
    else readIntReg c bank) fun r =>
  ret (interruptResponse r)

def execReadInt (bank : Bank) (s : State) : Host.Outcome State Fault Refusal :=
  runConstructed (readInt s.config s.mirrorOn bank) s

/-- One poll of CLEAR_INT (R120): INTF of bank A, then of bank B, always both. -/
def pollInt (c : Config) : Bus (Byte × Byte) :=
  andThen (memRead (reg c .intf .A)) fun fa =>
  andThen (memRead (reg c .intf .B)) fun fb =>
  ret (fa, fb)

/-- The retries of CLEAR_INT (R120), then the forced clear: a pause before each retry; either bank at zero ends it. -/
def clearRetry (c : Config) : Nat → Bus Response
  | 0 =>
    andThen (memRead (reg c .gpio .A)) fun _ =>
    andThen (memRead (reg c .gpio .B)) fun _ =>
    raise .forcedClear
  | n + 1 =>
    andThen (pause c.clearPauseMs) fun _ =>
    andThen (pollInt c) fun f =>
    if f.1 = 0 ∨ f.2 = 0 then ret { } else clearRetry c n

/-- CLEAR_INT (R120): the first poll needs both banks at zero. -/
def clearInt (c : Config) : Bus Response :=
  andThen (pollInt c) fun f =>
  if f.1 = 0 ∧ f.2 = 0 then ret { } else clearRetry c c.clearRetries

def execClearInt (s : State) : Host.Outcome State Fault Refusal :=
  runConstructed (clearInt s.config) s

end Sys2Proof.Machine
end

