-- ==== Sys2Proof/Machine/Mutator.lean ====
section
/-! DEFINITION. The bit-field mutator and pin access (41_rmw.md).  Every command first passes the construction check (R148); the mode guards are the truth table of R102. -/

namespace Sys2Proof.Machine

/-- RMW (R96): the register address is raw; `dir` and `mirror` are not touched. -/
def execRmw (r : Byte) (pin : PinIndex) (value : Bool) (known : Option Byte) (s : State) :
    Host.Outcome State Fault Refusal :=
  runConstructed (andThen (rmw r (pinOf s.config.geometry pin) value known) fun new => ret { data := zext16 new }) s

/-- SET_DIRECTION (R97): the pin's IODIR bit, then the cache byte of its bank from the byte written. -/
def setDirection (c : Config) (dir : Word16) (p : Pin) (mode : Mode) : Bus Response :=
  andThen (rmw (reg c .iodir p.bank) p (modeBit mode) (if c.dirUseCache then some (bankByte c.geometry p dir) else none)) fun new =>
  andThen (writeDir (dirWord c.geometry (merge16 c.geometry p dir new))) fun _ =>
  ret { data := dirWord c.geometry (merge16 c.geometry p dir new) }

def execSetDirection (pin : PinIndex) (mode : Mode) (s : State) : Host.Outcome State Fault Refusal :=
  runConstructed (setDirection s.config s.dirValue (pinOf s.config.geometry pin) mode) s

/-- SET_PULL_UP (R98): the result holds the pin's own bank only, the other byte is 0x00. -/
def setPullUp (c : Config) (p : Pin) (level : Level) : Bus Response :=
  andThen (rmw (reg c .gppu p.bank) p (levelBit level) none) fun new =>
  ret { data := merge16 c.geometry p 0 new }

def execSetPullUp (pin : PinIndex) (level : Level) (s : State) : Host.Outcome State Fault Refusal :=
  runConstructed (setPullUp s.config (pinOf s.config.geometry pin) level) s

/-- WRITE_OUTPUT (R99): raises WrongMode for a pin cached as Output; the OLAT byte is the known current of the GPIO write, and a
failed OLAT read is tolerated. -/
def writeOutput (c : Config) (dir : Word16) (p : Pin) (level : Level) : Bus Response :=
  match modeOf p dir with
  | .output => raise (.wrongMode p.index)
  | .input =>
    andThen (catchTransport (andThen (memRead (reg c .olat p.bank)) fun k => ret (some k)) (ret none)) fun kc =>
    andThen (rmw (reg c .gpio p.bank) p (levelBit level) kc) fun new =>
    ret { data := zext16 new }

def execWriteOutput (pin : PinIndex) (level : Level) (s : State) : Host.Outcome State Fault Refusal :=
  runConstructed (writeOutput s.config s.dirValue (pinOf s.config.geometry pin) level) s

/-- The unguarded read of a pin (R101): the pin's bit of its bank's GPIO. -/
def readPin (c : Config) (p : Pin) : Bus Response :=
  andThen (memRead (reg c .gpio p.bank)) fun g =>
  ret { pin := p.index, bit := g.getLsbD p.bit.toNat }

/-- READ_INPUT (R100): raises WrongMode for a pin cached as Output. -/
def readInput (c : Config) (dir : Word16) (p : Pin) : Bus Response :=
  match modeOf p dir with
  | .output => raise (.wrongMode p.index)
  | .input => readPin c p

def execReadInput (pin : PinIndex) (s : State) : Host.Outcome State Fault Refusal :=
  runConstructed (readInput s.config s.dirValue (pinOf s.config.geometry pin)) s

/-- READ_CURRENT (R101): no mode guard. -/
def execReadCurrent (pin : PinIndex) (s : State) : Host.Outcome State Fault Refusal :=
  runConstructed (readPin s.config (pinOf s.config.geometry pin)) s

end Sys2Proof.Machine
end

