-- ==== Sys2Proof/Machine/Dispatch.lean ====
section
/-! DEFINITION. One arm per command (30_encoding.md R62): each calls the command's meaning. -/

namespace Sys2Proof.Machine

def exec (i : Instr) (s : State) : Host.Outcome State Fault Refusal :=
  match i with
  | .pinDecode index => Sys2Proof.Machine.execPinDecode index s
  | .pinMode pin word => Sys2Proof.Machine.execPinMode pin word s
  | .setBit byte index value => Sys2Proof.Machine.execSetBit byte index value s
  | .merge16 pin word byte => Sys2Proof.Machine.execMerge16 pin word byte s
  | .rmw r pin value known => Sys2Proof.Machine.execRmw r pin value known s
  | .setDirection pin mode => Sys2Proof.Machine.execSetDirection pin mode s
  | .setPullUp pin level => Sys2Proof.Machine.execSetPullUp pin level s
  | .writeOutput pin level => Sys2Proof.Machine.execWriteOutput pin level s
  | .readInput pin => Sys2Proof.Machine.execReadInput pin s
  | .readCurrent pin => Sys2Proof.Machine.execReadCurrent pin s
  | .cfgSysInt mirror polarity => Sys2Proof.Machine.execCfgSysInt mirror polarity s
  | .cfgPinInt pin enabled compare defaultValue => Sys2Proof.Machine.execCfgPinInt pin enabled compare defaultValue s
  | .readIntReg bank => Sys2Proof.Machine.execReadIntReg bank s
  | .readInt bank => Sys2Proof.Machine.execReadInt bank s
  | .clearInt => Sys2Proof.Machine.execClearInt s
  | .reset => Sys2Proof.Machine.execReset s
  | .construct addr => Sys2Proof.Machine.execConstruct addr s

end Sys2Proof.Machine
end

