-- ==== Sys2Proof/Machine/Step.lean ====
section
/-! DEFINITION. One step of the block: it accepts the next command word, if it is idle and the host presents one, decodes it and runs it to its response (10_state.md R26, 30_encoding.md R60, R64, 60_exceptions.md R149). -/

namespace Sys2Proof.Machine

/-- One step.  With `busy = 1` no command is accepted, and with no command presented the block waits: nothing changes.  The
decode check comes before every other check (R64, R149). -/
def step (s : State) : Host.Outcome State Fault Refusal :=
  match s.accept with
  | none => .next s
  | some (w, t) =>
    match decode t.config w with
    | .command i => exec i t
    | .illegal _ => .next t.answerIllegal

/-- The host presents the row's word next (log 2). -/
def State.withFetchWord (s : State) (nbits w : Nat) : State := s.present (tableWord nbits w)

end Sys2Proof.Machine
end

