-- ==== Sys2Proof/Machine/Assembly.lean ====
section
/-! DEFINITION. The assembler syntax of 30_encoding.md R68: a line is a mnemonic in lower case, then operands separated by commas.  There are no pseudo-instructions (R69).  No step uses this file; it says which command a line of the spec's test vectors is (log 21). -/

namespace Sys2Proof.Machine

/-- An operand as it is written (R68). -/
inductive AsmOperand where
  | pin (p : PinIndex)
  | byte (b : Byte)
  | word (w : Word16)
  | bitIndex (i : BitIndex)
  | bit (v : Bool)
  | mode (m : Mode)
  | level (l : Level)
  | feature (f : Feature)
  | bank (b : Bank)
  | compare (c : Compare)
  /-- An absent Option, written `none`. -/
  | absent
  deriving DecidableEq, Repr

/-- One line of assembly. -/
structure AsmLine where
  mnemonic : Opcode
  operands : List AsmOperand
  deriving DecidableEq, Repr

/-- The line of a command. -/
def disassemble : Instr → AsmLine
  | .pinDecode index => ⟨.pinDecode, [.byte index]⟩
  | .pinMode pin word => ⟨.pinMode, [.pin pin, .word word]⟩
  | .setBit byte index value => ⟨.setBit, [.byte byte, .bitIndex index, .bit value]⟩
  | .merge16 pin word byte => ⟨.merge16, [.pin pin, .word word, .byte byte]⟩
  | .rmw r pin value none => ⟨.rmw, [.byte r, .pin pin, .bit value]⟩
  | .rmw r pin value (some known) => ⟨.rmw, [.byte r, .pin pin, .bit value, .byte known]⟩
  | .setDirection pin mode => ⟨.setDirection, [.pin pin, .mode mode]⟩
  | .setPullUp pin level => ⟨.setPullUp, [.pin pin, .level level]⟩
  | .writeOutput pin level => ⟨.writeOutput, [.pin pin, .level level]⟩
  | .readInput pin => ⟨.readInput, [.pin pin]⟩
  | .readCurrent pin => ⟨.readCurrent, [.pin pin]⟩
  | .cfgSysInt mirror polarity => ⟨.cfgSysInt, [.feature mirror, .level polarity]⟩
  | .cfgPinInt pin enabled compare none => ⟨.cfgPinInt, [.pin pin, .feature enabled, .compare compare, .absent]⟩
  | .cfgPinInt pin enabled compare (some v) => ⟨.cfgPinInt, [.pin pin, .feature enabled, .compare compare, .level v]⟩
  | .readIntReg bank => ⟨.readIntReg, [.bank bank]⟩
  | .readInt bank => ⟨.readInt, [.bank bank]⟩
  | .clearInt => ⟨.clearInt, []⟩
  | .reset => ⟨.reset, []⟩
  | .construct addr => ⟨.construct, [.byte addr]⟩

/-- The command of a line; none for a line that is no form of R68. -/
def assemble (l : AsmLine) : Option Instr :=
  match l.mnemonic, l.operands with
  | .pinDecode, [.byte index] => some (.pinDecode index)
  | .pinMode, [.pin pin, .word word] => some (.pinMode pin word)
  | .setBit, [.byte byte, .bitIndex index, .bit value] => some (.setBit byte index value)
  | .merge16, [.pin pin, .word word, .byte byte] => some (.merge16 pin word byte)
  | .rmw, [.byte r, .pin pin, .bit value] => some (.rmw r pin value none)
  | .rmw, [.byte r, .pin pin, .bit value, .byte known] => some (.rmw r pin value (some known))
  | .setDirection, [.pin pin, .mode mode] => some (.setDirection pin mode)
  | .setPullUp, [.pin pin, .level level] => some (.setPullUp pin level)
  | .writeOutput, [.pin pin, .level level] => some (.writeOutput pin level)
  | .readInput, [.pin pin] => some (.readInput pin)
  | .readCurrent, [.pin pin] => some (.readCurrent pin)
  | .cfgSysInt, [.feature mirror, .level polarity] => some (.cfgSysInt mirror polarity)
  | .cfgPinInt, [.pin pin, .feature enabled, .compare compare, .absent] => some (.cfgPinInt pin enabled compare none)
  | .cfgPinInt, [.pin pin, .feature enabled, .compare compare, .level v] =>
    some (.cfgPinInt pin enabled compare (some v))
  | .readIntReg, [.bank bank] => some (.readIntReg bank)
  | .readInt, [.bank bank] => some (.readInt bank)
  | .clearInt, [] => some .clearInt
  | .reset, [] => some .reset
  | .construct, [.byte addr] => some (.construct addr)
  | _, _ => none

/-- The command word of a line (R68: an absent Option's value is written as 0). -/
def assembleWord (l : AsmLine) : Option CommandWord := (assemble l).map encode

/-! ### The text of a line -/

/-- The mnemonics in lower case (R62, R68). -/
def mnemonicText : Opcode → String
  | .pinDecode => "pin_decode"
  | .pinMode => "pin_mode"
  | .setBit => "set_bit"
  | .merge16 => "merge16"
  | .rmw => "rmw"
  | .setDirection => "set_direction"
  | .setPullUp => "set_pull_up"
  | .writeOutput => "write_output"
  | .readInput => "read_input"
  | .readCurrent => "read_current"
  | .cfgSysInt => "cfg_sys_int"
  | .cfgPinInt => "cfg_pin_int"
  | .readIntReg => "read_int_reg"
  | .readInt => "read_int"
  | .clearInt => "clear_int"
  | .reset => "reset"
  | .construct => "construct"

/-- Every opcode, in the order of R62. -/
def allOpcodes : List Opcode :=
  [.pinDecode, .pinMode, .setBit, .merge16, .rmw, .setDirection, .setPullUp, .writeOutput, .readInput, .readCurrent,
   .cfgSysInt, .cfgPinInt, .readIntReg, .readInt, .clearInt, .reset, .construct]

/-- What an operand position of R68 takes. -/
inductive AsmKind where
  | pin | byte | word | bitIndex | bit | mode | level | feature | bank | compare | levelOrAbsent
  deriving DecidableEq, Repr

/-- The forms of R68: the operand positions of each mnemonic; RMW has two forms. -/
def asmForms : Opcode → List (List AsmKind)
  | .pinDecode => [[.byte]]
  | .pinMode => [[.pin, .word]]
  | .setBit => [[.byte, .bitIndex, .bit]]
  | .merge16 => [[.pin, .word, .byte]]
  | .rmw => [[.byte, .pin, .bit], [.byte, .pin, .bit, .byte]]
  | .setDirection => [[.pin, .mode]]
  | .setPullUp => [[.pin, .level]]
  | .writeOutput => [[.pin, .level]]
  | .readInput => [[.pin]]
  | .readCurrent => [[.pin]]
  | .cfgSysInt => [[.feature, .level]]
  | .cfgPinInt => [[.pin, .feature, .compare, .levelOrAbsent]]
  | .readIntReg => [[.bank]]
  | .readInt => [[.bank]]
  | .clearInt => [[]]
  | .reset => [[]]
  | .construct => [[.byte]]

/-- A digit's value in a base up to 16; letters in either case. -/
def digitValue (base : Nat) (c : Char) : Option Nat :=
  let n := c.toNat
  let v := if 48 ≤ n ∧ n ≤ 57 then n - 48 else if 97 ≤ n ∧ n ≤ 102 then n - 87
    else if 65 ≤ n ∧ n ≤ 70 then n - 55 else base
  if v < base then some v else none

/-- A run of digits, read after the digits already read. -/
def readDigits (base acc : Nat) : List Char → Option Nat
  | [] => some acc
  | c :: rest =>
    match digitValue base c with
    | some v => readDigits base (acc * base + v) rest
    | none => none

/-- A number of at least one digit, below a bound. -/
def readNumber (base bound : Nat) : List Char → Option Nat
  | [] => none
  | c :: rest =>
    match readDigits base 0 (c :: rest) with
    | some n => if n < bound then some n else none
    | none => none

/-- A hexadecimal number `0x..` below a bound. -/
def readHex (bound : Nat) : List Char → Option Nat
  | '0' :: 'x' :: rest => readNumber 16 bound rest
  | _ => none

/-- One operand of a kind, from its characters (R68). -/
def readOperand (k : AsmKind) (t : List Char) : Option AsmOperand :=
  match k with
  | .pin =>
    match t with
    | 'p' :: rest => (readNumber 10 16 rest).map fun n => .pin (BitVec.ofNat 4 n)
    | _ => none
  | .byte => (readHex 256 t).map fun n => .byte (BitVec.ofNat 8 n)
  | .word => (readHex 65536 t).map fun n => .word (BitVec.ofNat 16 n)
  | .bitIndex => (readNumber 10 8 t).map fun n => .bitIndex (BitVec.ofNat 3 n)
  | .bit => if t = ['1'] then some (.bit true) else if t = ['0'] then some (.bit false) else none
  | .mode =>
    if t = "input".toList then some (.mode .input) else if t = "output".toList then some (.mode .output) else none
  | .level => if t = "high".toList then some (.level .high) else if t = "low".toList then some (.level .low) else none
  | .feature => if t = "on".toList then some (.feature .on) else if t = "off".toList then some (.feature .off) else none
  | .bank => if t = ['a'] then some (.bank .A) else if t = ['b'] then some (.bank .B) else none
  | .compare =>
    if t = "default".toList then some (.compare .default)
    else if t = "previous".toList then some (.compare .previous) else none
  | .levelOrAbsent =>
    if t = "high".toList then some (.level .high) else if t = "low".toList then some (.level .low)
    else if t = "none".toList then some .absent else none

/-- The operands of one form, all of them or none. -/
def readOperands : List AsmKind → List (List Char) → Option (List AsmOperand)
  | [], [] => some []
  | k :: ks, t :: ts =>
    match readOperand k t, readOperands ks ts with
    | some o, some os => some (o :: os)
    | _, _ => none
  | [], _ :: _ => none
  | _ :: _, [] => none

/-- The pieces of a text between the commas. -/
def splitCommas : List Char → List (List Char)
  | [] => [[]]
  | c :: rest =>
    if c = ',' then [] :: splitCommas rest
    else
      match splitCommas rest with
      | piece :: pieces => (c :: piece) :: pieces
      | [] => [[c]]

/-- One line: the mnemonic up to the first space, then its operands. -/
def readLine (text : String) : Option AsmLine :=
  let name := text.toList.takeWhile (· ≠ ' ')
  let rest := (text.toList.drop name.length).filter (· ≠ ' ')
  let pieces := if rest = [] then [] else splitCommas rest
  match allOpcodes.find? (fun op => decide ((mnemonicText op).toList = name)) with
  | none => none
  | some op => ((asmForms op).findSome? fun ks => readOperands ks pieces).map fun os => ⟨op, os⟩

/-- The command word of a line of text. -/
def assembleText (text : String) : Option CommandWord := (readLine text).bind assembleWord

/-- A hexadecimal digit. -/
def hexDigit (n : Nat) : Char := if n < 10 then Char.ofNat (48 + n) else Char.ofNat (87 + n)

/-- The text of an operand (R68). -/
def operandText : AsmOperand → String
  | .pin p => "p" ++ toString p.toNat
  | .byte b => "0x" ++ String.ofList [hexDigit (b.toNat / 16), hexDigit (b.toNat % 16)]
  | .word w =>
    "0x" ++ String.ofList [hexDigit (w.toNat / 4096), hexDigit (w.toNat / 256 % 16), hexDigit (w.toNat / 16 % 16),
      hexDigit (w.toNat % 16)]
  | .bitIndex i => toString i.toNat
  | .bit v => if v then "1" else "0"
  | .mode .input => "input"
  | .mode .output => "output"
  | .level .high => "high"
  | .level .low => "low"
  | .feature .on => "on"
  | .feature .off => "off"
  | .bank .A => "a"
  | .bank .B => "b"
  | .compare .default => "default"
  | .compare .previous => "previous"
  | .absent => "none"

/-- Operands joined by commas. -/
def operandsText : List AsmOperand → String
  | [] => ""
  | [o] => operandText o
  | o :: os => operandText o ++ ", " ++ operandsText os

/-- The text of a line (R68). -/
def lineText (l : AsmLine) : String :=
  match l.operands with
  | [] => mnemonicText l.mnemonic
  | o :: os => mnemonicText l.mnemonic ++ " " ++ operandsText (o :: os)

end Sys2Proof.Machine
end

