-- ==== Sys2Proof/Safety.lean ====
section
/-! DEFINITION. The terms statements about the block are made in: the events of the trace, what a command's transactions leave, and the invariant of the block's states. -/

namespace Sys2Proof.Machine

/-! ### Events and answers -/

/-- The bus answered ok (to a READ: with some byte). -/
def isOk : BusAnswer → Bool
  | .ok _ => true
  | .fail => false
  | .silent => false

/-- `READ r` answered `ok v`. -/
def readOk (r v : Byte) : Event := ⟨.read r, .value v⟩

/-- `READ r` answered `fail`. -/
def readFail (r : Byte) : Event := ⟨.read r, .fail⟩

/-- `WRITE r v` answered `ok`. -/
def writeOk (r v : Byte) : Event := ⟨.write r v, .ok⟩

/-- `WRITE r v` answered `fail`. -/
def writeFail (r v : Byte) : Event := ⟨.write r v, .fail⟩

/-- `SETADDR a` answered `ok`. -/
def setAddrOk (a : Byte) : Event := ⟨.setAddr a, .ok⟩

/-- `PAUSE ms` answered `done`. -/
def paused (ms : Nat) : Event := ⟨.pause ms, .done⟩

/-- The events of one poll of CLEAR_INT (R120). -/
def pollEvents (c : Config) (fa fb : Byte) : List Event :=
  [readOk (reg c .intf .A) fa, readOk (reg c .intf .B) fb]

/-- The events of the first `n` retries of CLEAR_INT, the k-th retry (from 1) reading `fa k` and `fb k` (R120). -/
def retryEvents (c : Config) (fa fb : Nat → Byte) (n : Nat) : List Event :=
  (List.range n).flatMap fun k => paused c.clearPauseMs :: pollEvents c (fa (k + 1)) (fb (k + 1))

/-- The events of the writes of the reset sequence, all answered ok (R135). -/
def resetWriteEvents (c : Config) : List Event := (resetWrites c).map fun p => writeOk p.1 p.2

/-- `s` after `n` answers were drawn and the events `evs` joined the trace; nothing else differs from `s`. -/
def State.ran (s : State) (n : Nat) (evs : List Event) : State :=
  { s with oracle := s.oracle.skip n, trace := s.trace ++ evs }

/-- `s` after the timer was given `n` PAUSEs; nothing else differs from `s`. -/
def State.waited (s : State) (n : Nat) : State := { s with timer := s.timer.skip n }

/-- Is the event a PAUSE? -/
def isPause : Event → Bool
  | ⟨.pause _, _⟩ => true
  | ⟨.read _, _⟩ => false
  | ⟨.write _ _, _⟩ => false
  | ⟨.setAddr _, _⟩ => false

/-- `PAUSE ms` never answered. -/
def pauseSilent (ms : Nat) : Event := ⟨.pause ms, .unanswered⟩

/-- Is the next transaction, after the events `before` of the running command, one of the two reads whose failure is caught
(60_exceptions.md R145)?  WRITE_OUTPUT's OLAT read is its first transaction; READ_INT with mirror On reads bank B once the
INTF read of bank A has answered 0. -/
def readCaught (i : Instr) (s : State) (before : List Event) : Bool :=
  match i with
  | .writeOutput _ _ => before.isEmpty
  | .readInt _ => s.mirrorOn && decide (before.head? = some (readOk (reg s.config .intf .A) 0))
  | .pinDecode _ | .pinMode _ _ | .setBit _ _ _ | .merge16 _ _ _ | .rmw _ _ _ _ | .setDirection _ _ | .setPullUp _ _
  | .readInput _ | .readCurrent _ | .cfgSysInt _ _ | .cfgPinInt _ _ _ _ | .readIntReg _ | .clearInt | .reset
  | .construct _ => false

/-- The register address an event carries; SETADDR and PAUSE carry none. -/
def eventAddress : Event → Option Byte
  | ⟨.read r, _⟩ => some r
  | ⟨.write r _, _⟩ => some r
  | ⟨.setAddr _, _⟩ => none
  | ⟨.pause _, _⟩ => none

/-- Every register name of R43. -/
def allRegs : List RegName := [.iodir, .gpinten, .defval, .intcon, .iocon, .gppu, .intf, .intcap, .gpio, .olat]

/-- Every address of the register map R43. -/
def mapAddresses (c : Config) : List Byte := allRegs.flatMap fun n => [reg c n .A, reg c n .B]

/-- The registers the column "used by" of R43 gives a command (RMW's is its operand). -/
def usedRegs : Instr → List RegName
  | .pinDecode _ => []
  | .pinMode _ _ => []
  | .setBit _ _ _ => []
  | .merge16 _ _ _ => []
  | .rmw _ _ _ _ => []
  | .setDirection _ _ => [.iodir]
  | .setPullUp _ _ => [.gppu]
  | .writeOutput _ _ => [.gpio, .olat]
  | .readInput _ => [.gpio]
  | .readCurrent _ => [.gpio]
  | .cfgSysInt _ _ => [.iocon]
  | .cfgPinInt _ _ _ _ => [.gpinten, .intcon, .defval]
  | .readIntReg _ => [.intf, .intcap]
  | .readInt _ => [.intf, .intcap]
  | .clearInt => [.intf, .gpio]
  | .reset => [.iodir, .gpio, .gppu, .iocon, .gpinten, .intcon, .defval]
  | .construct _ => [.iodir, .gpio, .gppu, .iocon, .gpinten, .intcon, .defval]

/-! ### Responses -/

/-- The STATUS field of a response word (R65). -/
def statusField (w : ResponseWord) : BitVec 4 := w.extractLsb' 0 4

/-- The statuses that the column "produced by" of R145 gives a command once it is decoded. -/
def producedStatuses : Instr → List Status
  | .pinDecode _ => [.ok]
  | .pinMode _ _ => [.ok]
  | .setBit _ _ _ => [.ok]
  | .merge16 _ _ _ => [.ok]
  | .rmw _ _ _ _ => [.ok, .transport, .notConstructed]
  | .setDirection _ _ => [.ok, .transport, .notConstructed]
  | .setPullUp _ _ => [.ok, .transport, .notConstructed]
  | .writeOutput _ _ => [.ok, .transport, .wrongMode, .notConstructed]
  | .readInput _ => [.ok, .transport, .wrongMode, .notConstructed]
  | .readCurrent _ => [.ok, .transport, .notConstructed]
  | .cfgSysInt _ _ => [.ok, .transport, .notConstructed]
  | .cfgPinInt _ _ _ _ => [.ok, .transport, .wrongMode, .notConstructed]
  | .readIntReg _ => [.ok, .transport, .notConstructed]
  | .readInt _ => [.ok, .transport, .notConstructed]
  | .clearInt => [.ok, .transport, .forcedClear, .notConstructed]
  | .reset => [.ok, .transport, .notConstructed]
  | .construct _ => [.ok, .transport]

/-- The commands that need no constructed block (R148). -/
def runsUnconstructed : Instr → Bool
  | .pinDecode _ => true
  | .pinMode _ _ => true
  | .setBit _ _ _ => true
  | .merge16 _ _ _ => true
  | .construct _ => true
  | .rmw _ _ _ _ => false
  | .setDirection _ _ => false
  | .setPullUp _ _ => false
  | .writeOutput _ _ => false
  | .readInput _ => false
  | .readCurrent _ => false
  | .cfgSysInt _ _ => false
  | .cfgPinInt _ _ _ _ => false
  | .readIntReg _ => false
  | .readInt _ => false
  | .clearInt => false
  | .reset => false

/-! ### The invariant -/

/-- A request is recorded with an answer of its own kind (20_memory.md R41), or with none. -/
def eventFormed : Event → Bool
  | ⟨.read _, .value _⟩ => true
  | ⟨.read _, .fail⟩ => true
  | ⟨.read _, .unanswered⟩ => true
  | ⟨.read _, .ok⟩ => false
  | ⟨.read _, .done⟩ => false
  | ⟨.write _ _, .ok⟩ => true
  | ⟨.write _ _, .fail⟩ => true
  | ⟨.write _ _, .unanswered⟩ => true
  | ⟨.write _ _, .value _⟩ => false
  | ⟨.write _ _, .done⟩ => false
  | ⟨.setAddr _, .ok⟩ => true
  | ⟨.setAddr _, .fail⟩ => true
  | ⟨.setAddr _, .unanswered⟩ => true
  | ⟨.setAddr _, .value _⟩ => false
  | ⟨.setAddr _, .done⟩ => false
  | ⟨.pause _, .done⟩ => true
  | ⟨.pause _, .ok⟩ => false
  | ⟨.pause _, .fail⟩ => false
  | ⟨.pause _, .value _⟩ => false
  | ⟨.pause _, .unanswered⟩ => true

/-- A response word has its reserved fields zero and a status code that exists (30_encoding.md R65). -/
def responseFormed (w : ResponseWord) : Bool :=
  decide (w.extractLsb' 5 3 = 0) && decide (w.extractLsb' 13 3 = 0) && decide ((statusField w).toNat ≤ 5)

/-- A constructed block holds its caches (10_state.md R23, R24, R25). -/
def State.cachesHeld (s : State) : Bool := !s.constructed || (s.dir.isSome && s.mirror.isSome)

/-- `busy = 1` between steps exactly when some transaction or PAUSE was never answered (10_state.md R26, 70_reset_and_hazards.md R173). -/
def State.busyIffUnanswered (s : State) : Bool :=
  decide (s.busy = s.trace.any fun e => decide (e.answer = .unanswered))

/-- The invariant of the block's states. -/
def State.inv (s : State) : Bool :=
  s.cachesHeld && s.busyIffUnanswered && s.trace.all eventFormed && s.responses.all responseFormed

end Sys2Proof.Machine
end

