-- ==== Sys2Proof/Certificates/Slice0/Obligations.lean ====
section
/-! DEFINITION. The statements for the provers, each formalising rules of spec/.  `(s.ran n evs).respond r` is `s` after n answers were drawn, the events evs joined the trace and the response r was given with `busy` back at 0: every field not named there is as in `s`, so an equation with it states the result and the frame at once.  `.waited k` adds that the timer was given k PAUSEs.  `s.config.geometry = defaultGeometry` says that the counts of 00_scope.md R6 (NPINS, NBANKS, BANK_BITS, DIR_BITS, RESET_WRITES) have the values of its table, the only ones the spec's rules are written for (log 19); State.reset has them and no step changes them. -/

open Sys2Proof Sys2Proof.Machine

/-! ### Encoding -/

/-- R61, R62, R63, R67: decoding an encoded well-formed command gives it back, for every command and every parameter value. -/
def Obligations.DecodeOfEncodeIsIdentity : Prop :=
  ∀ (c : Config) (i : Instr), wellFormed c i = true → decode c (encode i) = .command i

/-- R63: what an accepted word carries beyond its command is only the bits marked "ignored if F2 = 0" (B8 of RMW, F3 of
CFG_PIN_INT); with them cleared it is the command's own encoding, and the command is well formed. -/
def Obligations.EncodeOfDecodeClearsIgnoredBits : Prop :=
  ∀ (c : Config) (w : CommandWord) (i : Instr), decode c w = .command i →
    wellFormed c i = true ∧
    (match i with
     | .rmw _ _ _ none => encode i = w &&& ~~~0x00000000FF000000#64
     | .cfgPinInt _ _ _ none => encode i = w &&& ~~~0x0000000000008000#64
     | _ => encode i = w)

/-- R64: a word decodes to no command exactly when its OPC is not in R62 or a bit that R63 marks must-be-zero for it is 1. -/
def Obligations.IllegalExactlyWhenUnlistedOrNonzero : Prop :=
  ∀ (c : Config) (w : CommandWord),
    (∃ why, decode c w = .illegal why) ↔
      ((∀ op, opcodeByte op ≠ opcField w) ∨ ∃ op, opcodeByte op = opcField w ∧ w &&& mustBeZero c op ≠ 0)

/-- R62, R63: words written out from the spec's encodings decode to the commands they stand for. -/
def Obligations.SampleWordsDecode : Prop :=
  decode defaultConfig 0x00000000000B0001 = .command (.pinDecode 0x0B) ∧
  decode defaultConfig 0x0000123400AB0804 = .command (.merge16 8 0x1234 0xAB) ∧
  decode defaultConfig 0x0000000001145F05 = .command (.rmw 0x14 15 true (some 0x01)) ∧
  decode defaultConfig 0x0000000000001F10 = .command (.setDirection 15 .input) ∧
  decode defaultConfig 0x000000000000C021 = .command (.cfgPinInt 0 .off .previous (some .high)) ∧
  decode defaultConfig 0x0000000000200031 = .command (.construct 0x20) ∧
  decode defaultConfig 0x0000000000001803 = .illegal .mustBeZeroBitSet ∧
  decode defaultConfig 0x0000000000800031 = .illegal .mustBeZeroBitSet ∧
  decode defaultConfig 0x0000000000000006 = .illegal .unassignedOpcode

/-- R65: each field of a response word holds what the response gives it, the other bits are 0, and the statuses have the six
codes of R65 and R145. -/
def Obligations.ResponseWordLayout : Prop :=
  (∀ r : Response,
    (responseWord r).extractLsb' 0 4 = statusCode r.status ∧
    (responseWord r).getLsbD 4 = r.present ∧
    (responseWord r).extractLsb' 5 3 = 0 ∧
    (responseWord r).extractLsb' 8 4 = r.pin ∧
    (responseWord r).getLsbD 12 = r.bit ∧
    (responseWord r).extractLsb' 13 3 = 0 ∧
    (responseWord r).extractLsb' 16 16 = r.data) ∧
  statusCode .ok = 0 ∧ statusCode .transport = 1 ∧ statusCode .wrongMode = 2 ∧ statusCode .forcedClear = 3 ∧
  statusCode .illegal = 4 ∧ statusCode .notConstructed = 5

/-! ### The step -/

/-- R60, R26: an idle block accepts the word the host presents and runs the command it decodes to, with `busy = 1`. -/
def Obligations.StepRunsDecodedCommand : Prop :=
  ∀ (s : State) (w : CommandWord) (rest : List CommandWord) (i : Instr),
    s.busy = false → s.commands = w :: rest → decode s.config w = .command i →
    step s = exec i { s with busy := true, commands := rest }

/-- R64: a word whose OPC is not in R62, or with a must-be-zero bit of R63 at 1, issues no bus transaction, changes no state and
is answered with STATUS = ILLEGAL and every other field zero, whatever the block's state (the word leaves the command port, the
response joins the response port). -/
def Obligations.IllegalWordAnsweredIllegal : Prop :=
  ∀ (s : State) (w : CommandWord) (rest : List CommandWord),
    s.busy = false → s.commands = w :: rest →
    ((∀ op, opcodeByte op ≠ opcField w) ∨ ∃ op, opcodeByte op = opcField w ∧ w &&& mustBeZero s.config op ≠ 0) →
    step s = .next { s with commands := rest, responses := s.responses ++ [0x00000004] }

/-- R148: a legal bus command before construction ends with NOT_CONSTRUCTED, every other field 0, no bus transaction and no
state change. -/
def Obligations.UnconstructedBusCommandAnswered : Prop :=
  ∀ (s : State) (w : CommandWord) (rest : List CommandWord) (i : Instr),
    s.busy = false → s.commands = w :: rest → decode s.config w = .command i →
    runsUnconstructed i = false → s.constructed = false →
    step s = .next { s with commands := rest, responses := s.responses ++ [0x00000005] }

/-- R26, 93 I21, R165: while `busy = 1` no command is accepted, and with none presented the block waits: nothing changes. -/
def Obligations.BusyOrIdlePortChangesNothing : Prop :=
  ∀ s : State, s.busy = true ∨ s.commands = [] → step s = .next s

/-- R31, R165: the state right after reset. -/
def Obligations.ResetValues : Prop :=
  State.reset.constructed = false ∧ State.reset.busy = false ∧ State.reset.dir = none ∧ State.reset.mirror = none ∧
  State.reset.trace = []

/-- R6, R43: the value column of the parameters, the whole register map included.  State.reset has them.  The addresses, the bit
positions, the Compare bit and the address width are the spec's own general knowledge (log 10). -/
def Obligations.DefaultParameterValues : Prop :=
  State.reset.config = defaultConfig ∧
  defaultConfig.geometry = { npins := 16, nbanks := 2, bankBits := 8, dirBits := 16, resetWrites := 14 } ∧
  defaultConfig.ioconMirrorBit = 6 ∧ defaultConfig.ioconIntpolBit = 1 ∧ defaultConfig.compareDefaultBit = true ∧
  defaultConfig.clearRetries = 3 ∧ defaultConfig.clearPauseMs = 500 ∧ defaultConfig.dirUseCache = false ∧
  defaultConfig.addrBits = 7 ∧
  reg defaultConfig .iodir .A = 0x00 ∧ reg defaultConfig .iodir .B = 0x01 ∧
  reg defaultConfig .gpinten .A = 0x04 ∧ reg defaultConfig .gpinten .B = 0x05 ∧
  reg defaultConfig .defval .A = 0x06 ∧ reg defaultConfig .defval .B = 0x07 ∧
  reg defaultConfig .intcon .A = 0x08 ∧ reg defaultConfig .intcon .B = 0x09 ∧
  reg defaultConfig .iocon .A = 0x0A ∧ reg defaultConfig .iocon .B = 0x0B ∧
  reg defaultConfig .gppu .A = 0x0C ∧ reg defaultConfig .gppu .B = 0x0D ∧
  reg defaultConfig .intf .A = 0x0E ∧ reg defaultConfig .intf .B = 0x0F ∧
  reg defaultConfig .intcap .A = 0x10 ∧ reg defaultConfig .intcap .B = 0x11 ∧
  reg defaultConfig .gpio .A = 0x12 ∧ reg defaultConfig .gpio .B = 0x13 ∧
  reg defaultConfig .olat .A = 0x14 ∧ reg defaultConfig .olat .B = 0x15

/-- R165: block reset gives the four registers their values of R31, issues no bus transaction, and the block then waits for a
command. -/
def Obligations.BlockResetEffect : Prop :=
  ∀ s : State,
    s.blockReset.constructed = false ∧ s.blockReset.busy = false ∧ s.blockReset.dir = none ∧
    s.blockReset.mirror = none ∧ s.blockReset.trace = s.trace ∧ s.blockReset.oracle = s.oracle ∧
    s.blockReset.timer = s.timer ∧
    (s.commands = [] → step s.blockReset = .next s.blockReset)

/-! ### The codec -/

/-- R80: PIN_DECODE completes on every index, constructed or not: 0 to 7 name bank A, 8 to 15 bank B with high_half 1, and an
index of 16 or more gives SOME = 0. -/
def Obligations.PinDecodeResult : Prop :=
  ∀ (index : Byte) (s : State), s.config.geometry = defaultGeometry →
    exec (.pinDecode index) s = .next ((s.ran 0 []).respond
      (if index.toNat < 8 then
        { present := true, pin := BitVec.ofNat 4 index.toNat, data := BitVec.ofNat 16 index.toNat }
      else if index.toNat < 16 then
        { present := true, pin := BitVec.ofNat 4 index.toNat, data := BitVec.ofNat 16 (24 + (index.toNat - 8)) }
      else { }))

/-- R82: PIN_MODE completes and returns the pin and bit `pin` of the operand word. -/
def Obligations.PinModeResult : Prop :=
  ∀ (pin : PinIndex) (word : Word16) (s : State),
    exec (.pinMode pin word) s = .next ((s.ran 0 []).respond { pin := pin, bit := word.getLsbD pin.toNat })

/-- R83: SET_BIT completes; DATA is the byte with only the indexed bit replaced, zero-extended. -/
def Obligations.SetBitResult : Prop :=
  ∀ (byte : Byte) (index : BitIndex) (value : Bool) (s : State),
    ∃ d : Byte, exec (.setBit byte index value) s = .next ((s.ran 0 []).respond { data := d.setWidth 16 }) ∧
      ∀ j, d.getLsbD j = if j = index.toNat then value else byte.getLsbD j

/-- R84: MERGE16 completes; DATA holds the byte in the half of the pin's bank and the word's other byte unchanged. -/
def Obligations.Merge16Result : Prop :=
  ∀ (pin : PinIndex) (word : Word16) (byte : Byte) (s : State), s.config.geometry = defaultGeometry →
    ∃ d : Word16, exec (.merge16 pin word byte) s = .next ((s.ran 0 []).respond { data := d }) ∧
      ∀ j, j < 8 →
        d.getLsbD j = (if pin.toNat < 8 then byte.getLsbD j else word.getLsbD j) ∧
        d.getLsbD (j + 8) = (if pin.toNat < 8 then word.getLsbD (j + 8) else byte.getLsbD j)

/-- R85: the laws of the codec. -/
def Obligations.CodecLaws : Prop :=
  ∀ g : Geometry, g = defaultGeometry →
  (∀ i : PinIndex, ((pinOf g i).bank = .A ↔ i.toNat < 8) ∧ (pinOf g i).bit.toNat = i.toNat % 8) ∧
  (∀ (index : Byte) (s : State), s.config.geometry = g → 16 ≤ index.toNat →
    exec (.pinDecode index) s = .next (s.respond { })) ∧
  (∀ (i : PinIndex) (w : Word16) (b : Byte), (pinOf g i).bank = .A →
    (merge16 g (pinOf g i) w b).extractLsb' 0 8 = b ∧
    (merge16 g (pinOf g i) w b).extractLsb' 8 8 = w.extractLsb' 8 8) ∧
  (∀ (i : PinIndex) (w : Word16) (b : Byte), (pinOf g i).bank = .B →
    (merge16 g (pinOf g i) w b).extractLsb' 8 8 = b ∧
    (merge16 g (pinOf g i) w b).extractLsb' 0 8 = w.extractLsb' 0 8) ∧
  (∀ (b : Byte) (i : BitIndex) (v : Bool),
    setBit8 (setBit8 b i v) i v = setBit8 b i v ∧ (setBit8 b i v).getLsbD i.toNat = v ∧
    ∀ j, j ≠ i.toNat → (setBit8 b i v).getLsbD j = b.getLsbD j) ∧
  (∀ (i : PinIndex) (w : Word16) (b : Byte),
    modeOf (pinOf g i) (merge16 g (pinOf g i) w b) = modeOfBit (b.getLsbD (pinOf g i).bit.toNat))

/-- R81: pins are equal exactly when their indices are, and their order is the order of their indices. -/
def Obligations.PinIdentityAndOrder : Prop :=
  ∀ i j : PinIndex,
    (pinSame (pinOf defaultGeometry i) (pinOf defaultGeometry j) = true ↔ i = j) ∧
    (pinBefore (pinOf defaultGeometry i) (pinOf defaultGeometry j) = true ↔ i.toNat < j.toNat)

/-! ### The bit-field mutator -/

/-- R95: with a known current, no read and exactly one write, of the current with the pin's bit changed, whose byte is
returned; a failed write raises Transport. -/
def Obligations.MutatorWithKnownCurrent : Prop :=
  ∀ (r : Byte) (p : Pin) (v : Bool) (k : Byte) (s : State),
    (isOk (s.oracle.peek 0) = true →
      rmw r p v (some k) s = (.value (setBit8 k p.bit v), s.ran 1 [writeOk r (setBit8 k p.bit v)])) ∧
    (s.oracle.peek 0 = .fail →
      rmw r p v (some k) s = (.raised .transport, s.ran 1 [writeFail r (setBit8 k p.bit v)]))

/-- R95: without a known current, exactly one read then one write; a failed read writes nothing and raises Transport, a failed
write raises Transport. -/
def Obligations.MutatorWithoutKnownCurrent : Prop :=
  ∀ (r : Byte) (p : Pin) (v : Bool) (s : State),
    (s.oracle.peek 0 = .fail → rmw r p v none s = (.raised .transport, s.ran 1 [readFail r])) ∧
    (∀ cur, s.oracle.peek 0 = .ok cur → isOk (s.oracle.peek 1) = true →
      rmw r p v none s =
        (.value (setBit8 cur p.bit v), s.ran 2 [readOk r cur, writeOk r (setBit8 cur p.bit v)])) ∧
    (∀ cur, s.oracle.peek 0 = .ok cur → s.oracle.peek 1 = .fail →
      rmw r p v none s = (.raised .transport, s.ran 2 [readOk r cur, writeFail r (setBit8 cur p.bit v)]))

/-- R96: RMW on a constructed block, with and without a known current: the raw register, the pin's bit in its bank, no block
state written. -/
def Obligations.RmwCompletes : Prop :=
  ∀ (r : Byte) (pin : PinIndex) (v : Bool) (p : Pin) (s : State), s.constructed = true → p = pinOf s.config.geometry pin →
    (∀ k, isOk (s.oracle.peek 0) = true →
      exec (.rmw r pin v (some k)) s = .next ((s.ran 1 [writeOk r (setBit8 k p.bit v)]).respond
        { data := (setBit8 k p.bit v).setWidth 16 })) ∧
    (∀ cur, s.oracle.peek 0 = .ok cur → isOk (s.oracle.peek 1) = true →
      exec (.rmw r pin v none) s =
        .next ((s.ran 2 [readOk r cur, writeOk r (setBit8 cur p.bit v)]).respond
          { data := (setBit8 cur p.bit v).setWidth 16 }))

/-- R63, R96, R116: with F2 = 0 the bits B8 of RMW and F3 of CFG_PIN_INT are not read, whatever they hold. -/
def Obligations.AbsentOptionValueIgnored : Prop :=
  ∀ (c : Config) (w : CommandWord), f2Field w = false →
    (opcField w = 0x05 → ∀ b : Byte, decode c ((w &&& ~~~0x00000000FF000000#64) ||| (b.setWidth 64 <<< 24)) = decode c w) ∧
    (opcField w = 0x21 → ∀ v : Bool,
      decode c ((w &&& ~~~0x0000000000008000#64) ||| ((BitVec.ofBool v).setWidth 64 <<< 15)) = decode c w)

/-- R97: SET_DIRECTION on a constructed block, without and with DIR_USE_CACHE: one IODIR read-modify-write, then the byte of
the pin's bank in `dir` is the byte written.  With DIR_USE_CACHE nothing is read and the current byte is `dir`'s, bits 7:0 for
pins 0 to 7 and bits 15:8 for pins 8 to 15. -/
def Obligations.SetDirectionCompletes : Prop :=
  ∀ (pin : PinIndex) (mode : Mode) (cur new : Byte) (d : Word16) (p : Pin) (s : State), s.constructed = true →
    s.config.geometry = defaultGeometry → p = pinOf defaultGeometry pin → new = setBit8 cur p.bit (modeBit mode) →
    d = (if pin.toNat < 8 then s.dirValue.extractLsb' 8 8 ++ new else new ++ s.dirValue.extractLsb' 0 8) →
    (s.config.dirUseCache = false → s.oracle.peek 0 = .ok cur → isOk (s.oracle.peek 1) = true →
      exec (.setDirection pin mode) s =
        .next (({ s.ran 2 [readOk (reg s.config .iodir p.bank) cur, writeOk (reg s.config .iodir p.bank) new] with
          dir := some d }).respond { data := d })) ∧
    (s.config.dirUseCache = true →
      cur = (if pin.toNat < 8 then s.dirValue.extractLsb' 0 8 else s.dirValue.extractLsb' 8 8) →
      isOk (s.oracle.peek 0) = true →
      exec (.setDirection pin mode) s =
        .next (({ s.ran 1 [writeOk (reg s.config .iodir p.bank) new] with dir := some d }).respond { data := d }))

/-- R97, R147: a failed read or write of SET_DIRECTION answers TRANSPORT and leaves `dir` and every other register unchanged,
without and with DIR_USE_CACHE. -/
def Obligations.SetDirectionFailureKeepsDir : Prop :=
  ∀ (pin : PinIndex) (mode : Mode) (cur new : Byte) (p : Pin) (s : State), s.constructed = true →
    s.config.geometry = defaultGeometry → p = pinOf defaultGeometry pin → new = setBit8 cur p.bit (modeBit mode) →
    (s.config.dirUseCache = false → s.oracle.peek 0 = .fail →
      exec (.setDirection pin mode) s =
        .next ((s.ran 1 [readFail (reg s.config .iodir p.bank)]).respond { status := .transport })) ∧
    (s.config.dirUseCache = false → s.oracle.peek 0 = .ok cur → s.oracle.peek 1 = .fail →
      exec (.setDirection pin mode) s =
        .next ((s.ran 2 [readOk (reg s.config .iodir p.bank) cur, writeFail (reg s.config .iodir p.bank) new]).respond
          { status := .transport })) ∧
    (s.config.dirUseCache = true →
      cur = (if pin.toNat < 8 then s.dirValue.extractLsb' 0 8 else s.dirValue.extractLsb' 8 8) →
      s.oracle.peek 0 = .fail →
      exec (.setDirection pin mode) s =
        .next ((s.ran 1 [writeFail (reg s.config .iodir p.bank) new]).respond { status := .transport }))

/-- R98: SET_PULL_UP on a constructed block: one GPPU read-modify-write; DATA holds the byte written in the pin's own half, the
other byte is 0x00. -/
def Obligations.SetPullUpCompletes : Prop :=
  ∀ (pin : PinIndex) (level : Level) (cur : Byte) (p : Pin) (s : State), s.constructed = true →
    s.config.geometry = defaultGeometry → p = pinOf s.config.geometry pin →
    s.oracle.peek 0 = .ok cur → isOk (s.oracle.peek 1) = true →
    exec (.setPullUp pin level) s =
      .next ((s.ran 2 [readOk (reg s.config .gppu p.bank) cur,
        writeOk (reg s.config .gppu p.bank) (setBit8 cur p.bit (levelBit level))]).respond
        { data := if pin.toNat < 8 then (setBit8 cur p.bit (levelBit level)).setWidth 16
                  else (setBit8 cur p.bit (levelBit level)).setWidth 16 <<< 8 })

/-- R99: WRITE_OUTPUT for a pin cached as Input: the OLAT byte with the pin's bit changed is written to GPIO; a failed OLAT read
is tolerated and GPIO is read in its place. -/
def Obligations.WriteOutputCompletes : Prop :=
  ∀ (pin : PinIndex) (level : Level) (cur : Byte) (p : Pin) (s : State), s.constructed = true → p = pinOf s.config.geometry pin →
    s.dirValue.getLsbD pin.toNat = true →
    (s.oracle.peek 0 = .ok cur → isOk (s.oracle.peek 1) = true →
      exec (.writeOutput pin level) s =
        .next ((s.ran 2 [readOk (reg s.config .olat p.bank) cur,
          writeOk (reg s.config .gpio p.bank) (setBit8 cur p.bit (levelBit level))]).respond
          { data := (setBit8 cur p.bit (levelBit level)).setWidth 16 })) ∧
    (s.oracle.peek 0 = .fail → s.oracle.peek 1 = .ok cur → isOk (s.oracle.peek 2) = true →
      exec (.writeOutput pin level) s =
        .next ((s.ran 3 [readFail (reg s.config .olat p.bank),
          readOk (reg s.config .gpio p.bank) cur,
          writeOk (reg s.config .gpio p.bank) (setBit8 cur p.bit (levelBit level))]).respond
          { data := (setBit8 cur p.bit (levelBit level)).setWidth 16 }))

/-- R99: WRITE_OUTPUT answers TRANSPORT where its GPIO read fails (after a tolerated OLAT failure) and where its GPIO write fails
(after the OLAT read, or after a tolerated OLAT failure and the GPIO read). -/
def Obligations.WriteOutputTransport : Prop :=
  ∀ (pin : PinIndex) (level : Level) (cur : Byte) (p : Pin) (s : State), s.constructed = true →
    s.dirValue.getLsbD pin.toNat = true → p = pinOf s.config.geometry pin →
    (s.oracle.peek 0 = .fail → s.oracle.peek 1 = .fail →
      exec (.writeOutput pin level) s =
        .next ((s.ran 2 [readFail (reg s.config .olat p.bank), readFail (reg s.config .gpio p.bank)]).respond
          { status := .transport })) ∧
    (s.oracle.peek 0 = .ok cur → s.oracle.peek 1 = .fail →
      exec (.writeOutput pin level) s =
        .next ((s.ran 2 [readOk (reg s.config .olat p.bank) cur,
          writeFail (reg s.config .gpio p.bank) (setBit8 cur p.bit (levelBit level))]).respond
          { status := .transport })) ∧
    (s.oracle.peek 0 = .fail → s.oracle.peek 1 = .ok cur → s.oracle.peek 2 = .fail →
      exec (.writeOutput pin level) s =
        .next ((s.ran 3 [readFail (reg s.config .olat p.bank), readOk (reg s.config .gpio p.bank) cur,
          writeFail (reg s.config .gpio p.bank) (setBit8 cur p.bit (levelBit level))]).respond
          { status := .transport }))

/-- R100: READ_INPUT for a pin cached as Input: one GPIO read; the pin and its bit. -/
def Obligations.ReadInputCompletes : Prop :=
  ∀ (pin : PinIndex) (g : Byte) (p : Pin) (s : State), s.constructed = true →
    s.config.geometry = defaultGeometry → p = pinOf s.config.geometry pin → s.dirValue.getLsbD pin.toNat = true →
    s.oracle.peek 0 = .ok g →
    exec (.readInput pin) s =
      .next ((s.ran 1 [readOk (reg s.config .gpio p.bank) g]).respond
        { pin := pin, bit := g.getLsbD (pin.toNat % 8) })

/-- R101: READ_CURRENT on a constructed block, whatever `dir` holds: one GPIO read; the pin and its bit. -/
def Obligations.ReadCurrentCompletes : Prop :=
  ∀ (pin : PinIndex) (g : Byte) (p : Pin) (s : State), s.constructed = true →
    s.config.geometry = defaultGeometry → p = pinOf s.config.geometry pin → s.oracle.peek 0 = .ok g →
    exec (.readCurrent pin) s =
      .next ((s.ran 1 [readOk (reg s.config .gpio p.bank) g]).respond
        { pin := pin, bit := g.getLsbD (pin.toNat % 8) })

/-- R102: the truth table of the mode guards.  Where a guard rejects, the answer is WRONG_MODE with the pin and no bus
transaction; where a command proceeds, its first bus transaction is issued. -/
def Obligations.ModeGuardTruthTable : Prop :=
  ∀ (pin : PinIndex) (level : Level) (enabled : Feature) (compare : Compare) (dv : Option Level) (mode : Mode) (r : Byte)
    (v : Bool) (kc : Option Byte) (s : State), s.constructed = true →
    (s.dirValue.getLsbD pin.toNat = false →
      exec (.writeOutput pin level) s = .next (s.respond { status := .wrongMode, pin := pin }) ∧
      exec (.readInput pin) s = .next (s.respond { status := .wrongMode, pin := pin }) ∧
      ∃ t q rest, exec (.cfgPinInt pin enabled compare dv) s = .next t ∧ t.trace = s.trace ++ q :: rest) ∧
    (s.dirValue.getLsbD pin.toNat = true →
      exec (.cfgPinInt pin enabled compare dv) s = .next (s.respond { status := .wrongMode, pin := pin }) ∧
      (∃ t q rest, exec (.writeOutput pin level) s = .next t ∧ t.trace = s.trace ++ q :: rest) ∧
      ∃ t q rest, exec (.readInput pin) s = .next t ∧ t.trace = s.trace ++ q :: rest) ∧
    (∀ i ∈ [Instr.readCurrent pin, .setDirection pin mode, .setPullUp pin level, .rmw r pin v kc],
      ∃ t q rest, exec i s = .next t ∧ t.trace = s.trace ++ q :: rest)

/-! ### Interrupts -/

/-- R115: CFG_SYS_INT on a constructed block: one IOCON read, one write of the byte with the two bits changed; `mirror` is then
the operand. -/
def Obligations.CfgSysIntCompletes : Prop :=
  ∀ (m : Feature) (pol : Level) (v : Byte) (s : State), s.constructed = true →
    s.oracle.peek 0 = .ok v → isOk (s.oracle.peek 1) = true →
    exec (.cfgSysInt m pol) s =
      .next (({ s.ran 2 [readOk (reg s.config .iocon .A) v,
          writeOk (reg s.config .iocon .A)
            (setBit8 (setBit8 v s.config.ioconMirrorBit (featureBit m)) s.config.ioconIntpolBit (levelBit pol))] with
        mirror := some m }).respond { })

/-- R115, R147: a failed read or write of CFG_SYS_INT answers TRANSPORT and leaves `mirror` and every other register
unchanged. -/
def Obligations.CfgSysIntFailureKeepsMirror : Prop :=
  ∀ (m : Feature) (pol : Level) (v : Byte) (s : State), s.constructed = true →
    (s.oracle.peek 0 = .fail →
      exec (.cfgSysInt m pol) s =
        .next ((s.ran 1 [readFail (reg s.config .iocon .A)]).respond { status := .transport })) ∧
    (s.oracle.peek 0 = .ok v → s.oracle.peek 1 = .fail →
      exec (.cfgSysInt m pol) s =
        .next ((s.ran 2 [readOk (reg s.config .iocon .A) v,
          writeFail (reg s.config .iocon .A)
            (setBit8 (setBit8 v s.config.ioconMirrorBit (featureBit m)) s.config.ioconIntpolBit (levelBit pol))]).respond
          { status := .transport }))

/-- R54: at the default positions CFG_SYS_INT changes bits 6 and 1 of IOCON only, and to its two operands. -/
def Obligations.IoconKeepsOtherSixBits : Prop :=
  ∀ (m : Feature) (pol : Level) (v : Byte) (s : State), s.constructed = true →
    s.config.ioconMirrorBit = 6 → s.config.ioconIntpolBit = 1 →
    s.oracle.peek 0 = .ok v → isOk (s.oracle.peek 1) = true →
    ∃ t w, exec (.cfgSysInt m pol) s = .next t ∧
      t.trace = s.trace ++ [readOk (reg s.config .iocon .A) v, writeOk (reg s.config .iocon .A) w] ∧
      ∀ j, w.getLsbD j = if j = 6 then featureBit m else if j = 1 then levelBit pol else v.getLsbD j

/-- R116: CFG_PIN_INT for a pin cached as Output: GPINTEN, INTCON, DEFVAL, each one read then one write of the pin's bit; an
absent default value writes Low.  The INTCON bit written is COMPARE_DEFAULT_BIT for Default and its opposite for Previous
(R10, 93_implementation_defined.md I16; at the default 1 it is F1, as R116 writes it); that the parameter chooses this bit and
not the command word's F1 is the model's reading, log 12. -/
def Obligations.CfgPinIntCompletes : Prop :=
  ∀ (pin : PinIndex) (en : Feature) (cmp : Compare) (dv : Option Level) (a b d : Byte) (p : Pin) (s : State),
    s.constructed = true → p = pinOf s.config.geometry pin → s.dirValue.getLsbD pin.toNat = false →
    s.oracle.peek 0 = .ok a → isOk (s.oracle.peek 1) = true → s.oracle.peek 2 = .ok b →
    isOk (s.oracle.peek 3) = true → s.oracle.peek 4 = .ok d → isOk (s.oracle.peek 5) = true →
    exec (.cfgPinInt pin en cmp dv) s =
      .next ((s.ran 6
        [readOk (reg s.config .gpinten p.bank) a,
         writeOk (reg s.config .gpinten p.bank) (setBit8 a p.bit (featureBit en)),
         readOk (reg s.config .intcon p.bank) b,
         writeOk (reg s.config .intcon p.bank) (setBit8 b p.bit
           (if cmp = .default then s.config.compareDefaultBit else !s.config.compareDefaultBit)),
         readOk (reg s.config .defval p.bank) d,
         writeOk (reg s.config .defval p.bank)
           (setBit8 d p.bit (decide (dv = some .high)))]).respond { })

/-- R117: for a nonzero byte `hsb` is the index of its highest set bit, which is floor(log2). -/
def Obligations.HighestSetBit : Prop :=
  ∀ b : Byte, b ≠ 0 →
    b.getLsbD (hsb b).toNat = true ∧ (∀ j, (hsb b).toNat < j → b.getLsbD j = false) ∧ (hsb b).toNat = Nat.log2 b.toNat

/-- R118: READ_INT_REG on a constructed block: INTF = 0 gives SOME = 0 with one read; else the highest flagged pin of the bank
with its captured state, after one INTCAP read. -/
def Obligations.ReadIntRegCompletes : Prop :=
  ∀ (bank : Bank) (f v : Byte) (s : State), s.constructed = true →
    s.config.geometry = defaultGeometry → s.oracle.peek 0 = .ok f →
    (f = 0 → exec (.readIntReg bank) s = .next ((s.ran 1 [readOk (reg s.config .intf bank) f]).respond { })) ∧
    (f ≠ 0 → s.oracle.peek 1 = .ok v →
      exec (.readIntReg bank) s =
        .next ((s.ran 2 [readOk (reg s.config .intf bank) f, readOk (reg s.config .intcap bank) v]).respond
          { present := true,
            pin := BitVec.ofNat 4 ((hsb f).toNat + if bank = .A then 0 else 8),
            bit := v.getLsbD (hsb f).toNat }))

/-- R119: READ_INT with mirror Off reads the requested bank; with mirror On bank A first, whatever bank is requested, and a
bank-A interrupt ends it. -/
def Obligations.ReadIntCompletes : Prop :=
  ∀ (bank : Bank) (s : State), s.constructed = true →
    (s.mirrorOn = false → exec (.readInt bank) s = exec (.readIntReg bank) s ∧
      (s.oracle.peek 0 = .ok 0 →
        exec (.readInt bank) s = .next ((s.ran 1 [readOk (reg s.config .intf bank) 0]).respond { }))) ∧
    (s.mirrorOn = true → ∀ f v, s.oracle.peek 0 = .ok f → f ≠ 0 → s.oracle.peek 1 = .ok v →
      exec (.readInt bank) s =
        .next ((s.ran 2 [readOk (reg s.config .intf .A) f, readOk (reg s.config .intcap .A) v]).respond
          { present := true, pin := BitVec.ofNat 4 (hsb f).toNat, bit := v.getLsbD (hsb f).toNat }))

/-- R119: with mirror On and no interrupt in bank A, READ_INT reads bank B: its pin, or none; a transport failure of either
bank-B read is swallowed (SOME = 0, STATUS OK), while a failure of either bank-A read answers TRANSPORT. -/
def Obligations.MirroredReadIntUsesBankB : Prop :=
  ∀ (bank : Bank) (f v : Byte) (s : State), s.constructed = true →
    s.config.geometry = defaultGeometry → s.mirrorOn = true →
    (s.oracle.peek 0 = .fail →
      exec (.readInt bank) s = .next ((s.ran 1 [readFail (reg s.config .intf .A)]).respond { status := .transport })) ∧
    (s.oracle.peek 0 = .ok f → f ≠ 0 → s.oracle.peek 1 = .fail →
      exec (.readInt bank) s =
        .next ((s.ran 2 [readOk (reg s.config .intf .A) f, readFail (reg s.config .intcap .A)]).respond
          { status := .transport })) ∧
    (s.oracle.peek 0 = .ok 0 →
      (s.oracle.peek 1 = .fail →
        exec (.readInt bank) s =
          .next ((s.ran 2 [readOk (reg s.config .intf .A) 0, readFail (reg s.config .intf .B)]).respond { })) ∧
      (s.oracle.peek 1 = .ok 0 →
        exec (.readInt bank) s =
          .next ((s.ran 2 [readOk (reg s.config .intf .A) 0, readOk (reg s.config .intf .B) 0]).respond { })) ∧
      (s.oracle.peek 1 = .ok f → f ≠ 0 → s.oracle.peek 2 = .fail →
        exec (.readInt bank) s =
          .next ((s.ran 3 [readOk (reg s.config .intf .A) 0, readOk (reg s.config .intf .B) f,
            readFail (reg s.config .intcap .B)]).respond { })) ∧
      (s.oracle.peek 1 = .ok f → f ≠ 0 → s.oracle.peek 2 = .ok v →
        exec (.readInt bank) s =
          .next ((s.ran 3 [readOk (reg s.config .intf .A) 0, readOk (reg s.config .intf .B) f,
            readOk (reg s.config .intcap .B) v]).respond
            { present := true, pin := BitVec.ofNat 4 ((hsb f).toNat + 8), bit := v.getLsbD (hsb f).toNat })))

/-- R120: CLEAR_INT succeeds at once when both banks read zero at the first poll. -/
def Obligations.ClearIntFirstPoll : Prop :=
  ∀ s : State, s.constructed = true → s.oracle.peek 0 = .ok 0 → s.oracle.peek 1 = .ok 0 →
    exec .clearInt s = .next ((s.ran 2 (pollEvents s.config 0 0)).respond { })

/-- R120, R121: where the first poll does not see both banks at zero and retry k is the first to see either at zero (every
PAUSE so far being answered), CLEAR_INT succeeds there, after 2 + 3k events. -/
def Obligations.ClearIntSucceedsAtRetry : Prop :=
  ∀ (s : State) (fa fb : Nat → Byte) (k : Nat), s.constructed = true → k < s.config.clearRetries →
    (∀ j, j ≤ k → s.timer.peek j = true) →
    (∀ j, j ≤ k + 1 → s.oracle.peek (2 * j) = .ok (fa j) ∧ s.oracle.peek (2 * j + 1) = .ok (fb j)) →
    ¬ (fa 0 = 0 ∧ fb 0 = 0) → (∀ j, 1 ≤ j → j ≤ k → fa j ≠ 0 ∧ fb j ≠ 0) → (fa (k + 1) = 0 ∨ fb (k + 1) = 0) →
    exec .clearInt s =
      .next (((s.ran (2 * k + 4)
        (pollEvents s.config (fa 0) (fb 0) ++ retryEvents s.config fa fb (k + 1))).waited (k + 1)).respond { }) ∧
    (pollEvents s.config (fa 0) (fb 0) ++ retryEvents s.config fa fb (k + 1)).length = 2 + 3 * (k + 1)

/-- R120, R121: where every PAUSE is answered and every retry still sees both banks nonzero, CLEAR_INT reads GPIOA then GPIOB and
answers FORCED_CLEAR, after 2 + 3 * CLEAR_RETRIES + 2 events. -/
def Obligations.ClearIntForcedClear : Prop :=
  ∀ (s : State) (fa fb : Nat → Byte) (ga gb : Byte), s.constructed = true →
    (∀ j, j < s.config.clearRetries → s.timer.peek j = true) →
    (∀ j, j ≤ s.config.clearRetries →
      s.oracle.peek (2 * j) = .ok (fa j) ∧ s.oracle.peek (2 * j + 1) = .ok (fb j)) →
    ¬ (fa 0 = 0 ∧ fb 0 = 0) → (∀ j, 1 ≤ j → j ≤ s.config.clearRetries → fa j ≠ 0 ∧ fb j ≠ 0) →
    s.oracle.peek (2 * s.config.clearRetries + 2) = .ok ga → s.oracle.peek (2 * s.config.clearRetries + 3) = .ok gb →
    exec .clearInt s =
      .next (((s.ran (2 * s.config.clearRetries + 4)
        (pollEvents s.config (fa 0) (fb 0) ++ retryEvents s.config fa fb s.config.clearRetries ++
          [readOk (reg s.config .gpio .A) ga, readOk (reg s.config .gpio .B) gb])).waited
        s.config.clearRetries).respond { status := .forcedClear }) ∧
    (pollEvents s.config (fa 0) (fb 0) ++ retryEvents s.config fa fb s.config.clearRetries ++
      [readOk (reg s.config .gpio .A) ga, readOk (reg s.config .gpio .B) gb]).length = 2 + 3 * s.config.clearRetries + 2

/-- R173, 93_implementation_defined.md I5: where every poll so far asked for another retry and the PAUSE before retry k + 1 is
never answered, CLEAR_INT never responds: no response, `busy` stays 1, no register changes, and nothing follows the PAUSE in
the trace. -/
def Obligations.SilentPauseLeavesBlockStuck : Prop :=
  ∀ (s : State) (fa fb : Nat → Byte) (k : Nat), s.constructed = true → k < s.config.clearRetries →
    (∀ j, j < k → s.timer.peek j = true) → s.timer.peek k = false →
    (∀ j, j ≤ k → s.oracle.peek (2 * j) = .ok (fa j) ∧ s.oracle.peek (2 * j + 1) = .ok (fb j)) →
    ¬ (fa 0 = 0 ∧ fb 0 = 0) → (∀ j, 1 ≤ j → j ≤ k → fa j ≠ 0 ∧ fb j ≠ 0) →
    exec .clearInt s = .next { (s.ran (2 * k + 2) (pollEvents s.config (fa 0) (fb 0) ++ retryEvents s.config fa fb k ++
      [pauseSilent s.config.clearPauseMs])).waited (k + 1) with busy := true }

/-! ### The device commands -/

/-- R135: RESET on a constructed block, when nothing fails: the fourteen writes in order, the two GPIO reads, STATUS OK; `dir`
and `mirror` keep their values. -/
def Obligations.ResetCompletes : Prop :=
  ∀ (ga gb : Byte) (s : State), s.constructed = true →
    s.config.geometry = defaultGeometry →
    (∀ k, k < 14 → isOk (s.oracle.peek k) = true) → s.oracle.peek 14 = .ok ga → s.oracle.peek 15 = .ok gb →
    (resetWriteEvents s.config).length = 14 ∧
    exec .reset s = .next ((s.ran 16 (resetWriteEvents s.config ++
      [readOk (reg s.config .gpio .A) ga, readOk (reg s.config .gpio .B) gb])).respond { })

/-- R135: the fourteen writes and their order at the default register map. -/
def Obligations.ResetWriteListAtDefaults : Prop :=
  resetWrites defaultConfig =
    [(0x00, 0xFF), (0x01, 0xFF), (0x12, 0x00), (0x13, 0x00), (0x0C, 0x00), (0x0D, 0x00), (0x0A, 0x00), (0x0B, 0x00),
     (0x04, 0x00), (0x05, 0x00), (0x08, 0x00), (0x09, 0x00), (0x06, 0x00), (0x07, 0x00)]

/-- R135: a failure of write n + 1 leaves exactly n + 1 transactions in the trace, the last of them the failed one, and answers
TRANSPORT. -/
def Obligations.ResetStopsAtFailedWrite : Prop :=
  ∀ (n : Nat) (r v : Byte) (s : State), s.constructed = true → (resetWrites s.config)[n]? = some (r, v) →
    (∀ k, k < n → isOk (s.oracle.peek k) = true) → s.oracle.peek n = .fail →
    exec .reset s =
      .next ((s.ran (n + 1) ((resetWriteEvents s.config).take n ++ [writeFail r v])).respond { status := .transport })

/-- R136: CONSTRUCT, on any block, when nothing fails: SETADDR, the two IODIR reads, the reset sequence; `dir` comes from the
reads, `mirror` is Off, `constructed` is 1; 19 events. -/
def Obligations.ConstructCompletes : Prop :=
  ∀ (addr a b ga gb : Byte) (s : State), s.config.geometry = defaultGeometry →
    isOk (s.oracle.peek 0) = true → s.oracle.peek 1 = .ok a → s.oracle.peek 2 = .ok b →
    (∀ k, k < 14 → isOk (s.oracle.peek (3 + k)) = true) → s.oracle.peek 17 = .ok ga → s.oracle.peek 18 = .ok gb →
    exec (.construct addr) s =
      .next (({ s.ran 19 ([setAddrOk addr, readOk (reg s.config .iodir .A) a, readOk (reg s.config .iodir .B) b] ++
          resetWriteEvents s.config ++ [readOk (reg s.config .gpio .A) ga, readOk (reg s.config .gpio .B) gb]) with
        dir := some (b ++ a), mirror := some .off, constructed := true }).respond { })

/-- R136, R25: a CONSTRUCT that does not complete leaves `constructed = 0`; a failed one answers TRANSPORT; `dir` and `mirror`
are not written. -/
def Obligations.FailedConstructLeavesUnconstructed : Prop :=
  ∀ (addr : Byte) (s t : State), exec (.construct addr) s = .next t →
    (t.constructed = true → t.busy = false ∧ t.responses = s.responses ++ [responseWord { }]) ∧
    (t.constructed = false →
      t.dir = s.dir ∧ t.mirror = s.mirror ∧
      (t.busy = false → t.responses = s.responses ++ [responseWord { status := .transport }]))

/-! ### Rules of the whole machine -/

/-- R22, R24, R25, R29: only SET_DIRECTION and CONSTRUCT write `dir`, only CFG_SYS_INT and CONSTRUCT write `mirror`, only
CONSTRUCT writes `constructed`; no command touches the parameters or the words the host has still to present. -/
def Obligations.WritersOfBlockState : Prop :=
  ∀ (i : Instr) (s t : State), exec i s = .next t →
    t.config = s.config ∧ t.commands = s.commands ∧
    (opcodeOf i ≠ .setDirection → opcodeOf i ≠ .construct → t.dir = s.dir) ∧
    (opcodeOf i ≠ .cfgSysInt → opcodeOf i ≠ .construct → t.mirror = s.mirror) ∧
    (opcodeOf i ≠ .construct → t.constructed = s.constructed)

/-- R6: the parameters of the block are fixed: no step changes one of them. -/
def Obligations.ParametersNeverChange : Prop :=
  ∀ s t : State, step s = .next t → t.config = s.config

/-- R60, R147, R173: every command answers a next state: its transactions join the end of the trace, each with one answer drawn
in order (of the timer for a PAUSE, of the bus oracle for any other), and it gives exactly one response with `busy` back at 0,
unless a transaction or a PAUSE was never answered: then none, and `busy` is 1. -/
def Obligations.OneResponsePerCommand : Prop :=
  ∀ (i : Instr) (s : State), ∃ t evs, exec i s = .next t ∧ t.trace = s.trace ++ evs ∧
    t.oracle = s.oracle.skip (evs.countP fun e => !isPause e) ∧ t.timer = s.timer.skip (evs.countP isPause) ∧
    ((t.busy = false ∧ (∀ e ∈ evs, e.answer ≠ .unanswered) ∧ ∃ r, t.responses = s.responses ++ [r]) ∨
     (t.busy = true ∧ t.responses = s.responses ∧
      ∃ q before, evs = before ++ [⟨q, .unanswered⟩] ∧ ∀ e ∈ before, e.answer ≠ .unanswered))

/-- R44, R145, R147, R149: a failed transaction of any command is its last one and the command answers TRANSPORT, every other
field of the response 0, but for the two reads whose failure is caught: WRITE_OUTPUT's OLAT read, and READ_INT's reads of bank
B with mirror On. -/
def Obligations.FailedTransactionEndsCommand : Prop :=
  ∀ (i : Instr) (s t : State) (before after : List Event) (e : Event),
    exec i s = .next t → t.trace = s.trace ++ (before ++ e :: after) → e.answer = .fail →
    readCaught i s before = false →
    after = [] ∧ t.responses = s.responses ++ [0x00000001]

/-- R145: each command gives only the statuses of its row. -/
def Obligations.StatusesOfEachCommand : Prop :=
  ∀ (i : Instr) (s t : State), exec i s = .next t →
    t.responses = s.responses ∨
    ∃ r st, st ∈ producedStatuses i ∧ t.responses = s.responses ++ [r] ∧ statusField r = statusCode st

/-- R40, R43: every transaction of a command goes to a register its row of R43 names, RMW's to its operand. -/
def Obligations.AddressesOfEachCommand : Prop :=
  ∀ (i : Instr) (s t : State) (evs : List Event) (e : Event) (r : Byte),
    exec i s = .next t → t.trace = s.trace ++ evs → e ∈ evs → eventAddress e = some r →
    (∃ pin v kc, i = .rmw r pin v kc) ∨ ∃ n bank, n ∈ usedRegs i ∧ r = reg s.config n bank

/-- R27, R146: no command reads the trace or an earlier response: with another history before it, a step does the same and
appends the same. -/
def Obligations.HistoryIsNeverRead : Prop :=
  ∀ (s t : State) (h : List Event) (rs : List ResponseWord), step s = .next t →
    step { s with trace := h ++ s.trace, responses := rs ++ s.responses } =
      .next { t with trace := h ++ t.trace, responses := rs ++ t.responses }

/-- R23, R26, R41, R65: every step keeps the invariant: a constructed block holds `dir` and `mirror`; `busy` is 1 exactly when a
transaction or PAUSE was never answered; every event has an answer of its kind; every response word is formed as R65 says. -/
def Obligations.StepKeepsInvariant : Prop :=
  ∀ s t : State, s.inv = true → step s = .next t → t.inv = true

/-- The invariant holds right after reset. -/
def Obligations.InvariantAtReset : Prop := State.reset.inv = true

/-- R68: assembling the line of a command gives the command, and the spec's own lines assemble to its words. -/
def Obligations.AssembleOfDisassemble : Prop :=
  (∀ i : Instr, assemble (disassemble i) = some i) ∧
  assembleText "rmw 0x14, p15, 1, 0x01" = some 0x0000000001145F05 ∧
  assembleText "cfg_pin_int p9, on, default, none" = some 0x0000000000003921 ∧
  assembleText "merge16 p8, 0x1234, 0xab" = some 0x0000123400AB0804
end

