-- ==== Sys2Proof/Laws/State.lean ====
section
/-! SUPPORT. One lemma per field per update of State, true by rfl, so that no later proof unfolds a record update. -/

namespace Sys2Proof.Machine

@[simp] theorem State.transact_config (s : State) (q : Request) (a : Answer) : (s.transact q a).config = s.config := rfl
@[simp] theorem State.transact_constructed (s : State) (q : Request) (a : Answer) : (s.transact q a).constructed = s.constructed := rfl
@[simp] theorem State.transact_busy (s : State) (q : Request) (a : Answer) : (s.transact q a).busy = s.busy := rfl
@[simp] theorem State.transact_dir (s : State) (q : Request) (a : Answer) : (s.transact q a).dir = s.dir := rfl
@[simp] theorem State.transact_mirror (s : State) (q : Request) (a : Answer) : (s.transact q a).mirror = s.mirror := rfl
@[simp] theorem State.transact_commands (s : State) (q : Request) (a : Answer) : (s.transact q a).commands = s.commands := rfl
@[simp] theorem State.transact_oracle (s : State) (q : Request) (a : Answer) : (s.transact q a).oracle = s.oracle.skip 1 := rfl
@[simp] theorem State.transact_timer (s : State) (q : Request) (a : Answer) : (s.transact q a).timer = s.timer := rfl
@[simp] theorem State.transact_trace (s : State) (q : Request) (a : Answer) : (s.transact q a).trace = s.trace ++ [⟨q, a⟩] := rfl
@[simp] theorem State.transact_responses (s : State) (q : Request) (a : Answer) : (s.transact q a).responses = s.responses := rfl

@[simp] theorem State.respond_config (s : State) (r : Response) : (s.respond r).config = s.config := rfl
@[simp] theorem State.respond_constructed (s : State) (r : Response) : (s.respond r).constructed = s.constructed := rfl
@[simp] theorem State.respond_busy (s : State) (r : Response) : (s.respond r).busy = false := rfl
@[simp] theorem State.respond_dir (s : State) (r : Response) : (s.respond r).dir = s.dir := rfl
@[simp] theorem State.respond_mirror (s : State) (r : Response) : (s.respond r).mirror = s.mirror := rfl
@[simp] theorem State.respond_commands (s : State) (r : Response) : (s.respond r).commands = s.commands := rfl
@[simp] theorem State.respond_oracle (s : State) (r : Response) : (s.respond r).oracle = s.oracle := rfl
@[simp] theorem State.respond_timer (s : State) (r : Response) : (s.respond r).timer = s.timer := rfl
@[simp] theorem State.respond_trace (s : State) (r : Response) : (s.respond r).trace = s.trace := rfl
@[simp] theorem State.respond_responses (s : State) (r : Response) : (s.respond r).responses = s.responses ++ [responseWord r] := rfl

@[simp] theorem State.present_config (s : State) (w : CommandWord) : (s.present w).config = s.config := rfl
@[simp] theorem State.present_constructed (s : State) (w : CommandWord) : (s.present w).constructed = s.constructed := rfl
@[simp] theorem State.present_busy (s : State) (w : CommandWord) : (s.present w).busy = false := rfl
@[simp] theorem State.present_dir (s : State) (w : CommandWord) : (s.present w).dir = s.dir := rfl
@[simp] theorem State.present_mirror (s : State) (w : CommandWord) : (s.present w).mirror = s.mirror := rfl
@[simp] theorem State.present_commands (s : State) (w : CommandWord) : (s.present w).commands = w :: s.commands := rfl
@[simp] theorem State.present_oracle (s : State) (w : CommandWord) : (s.present w).oracle = s.oracle := rfl
@[simp] theorem State.present_timer (s : State) (w : CommandWord) : (s.present w).timer = s.timer := rfl
@[simp] theorem State.present_trace (s : State) (w : CommandWord) : (s.present w).trace = s.trace := rfl
@[simp] theorem State.present_responses (s : State) (w : CommandWord) : (s.present w).responses = s.responses := rfl

@[simp] theorem State.ran_config (s : State) (n : Nat) (evs : List Event) : (s.ran n evs).config = s.config := rfl
@[simp] theorem State.ran_constructed (s : State) (n : Nat) (evs : List Event) : (s.ran n evs).constructed = s.constructed := rfl
@[simp] theorem State.ran_busy (s : State) (n : Nat) (evs : List Event) : (s.ran n evs).busy = s.busy := rfl
@[simp] theorem State.ran_dir (s : State) (n : Nat) (evs : List Event) : (s.ran n evs).dir = s.dir := rfl
@[simp] theorem State.ran_mirror (s : State) (n : Nat) (evs : List Event) : (s.ran n evs).mirror = s.mirror := rfl
@[simp] theorem State.ran_commands (s : State) (n : Nat) (evs : List Event) : (s.ran n evs).commands = s.commands := rfl
@[simp] theorem State.ran_oracle (s : State) (n : Nat) (evs : List Event) : (s.ran n evs).oracle = s.oracle.skip n := rfl
@[simp] theorem State.ran_timer (s : State) (n : Nat) (evs : List Event) : (s.ran n evs).timer = s.timer := rfl
@[simp] theorem State.ran_trace (s : State) (n : Nat) (evs : List Event) : (s.ran n evs).trace = s.trace ++ evs := rfl
@[simp] theorem State.ran_responses (s : State) (n : Nat) (evs : List Event) : (s.ran n evs).responses = s.responses := rfl

@[simp] theorem State.waited_config (s : State) (n : Nat) : (s.waited n).config = s.config := rfl
@[simp] theorem State.waited_constructed (s : State) (n : Nat) : (s.waited n).constructed = s.constructed := rfl
@[simp] theorem State.waited_busy (s : State) (n : Nat) : (s.waited n).busy = s.busy := rfl
@[simp] theorem State.waited_dir (s : State) (n : Nat) : (s.waited n).dir = s.dir := rfl
@[simp] theorem State.waited_mirror (s : State) (n : Nat) : (s.waited n).mirror = s.mirror := rfl
@[simp] theorem State.waited_commands (s : State) (n : Nat) : (s.waited n).commands = s.commands := rfl
@[simp] theorem State.waited_oracle (s : State) (n : Nat) : (s.waited n).oracle = s.oracle := rfl
@[simp] theorem State.waited_trace (s : State) (n : Nat) : (s.waited n).trace = s.trace := rfl
@[simp] theorem State.waited_responses (s : State) (n : Nat) : (s.waited n).responses = s.responses := rfl
@[simp] theorem State.waited_timer (s : State) (n : Nat) : (s.waited n).timer = s.timer.skip n := rfl

@[simp] theorem State.blockReset_config (s : State) : (s.blockReset).config = s.config := rfl
@[simp] theorem State.blockReset_constructed (s : State) : (s.blockReset).constructed = false := rfl
@[simp] theorem State.blockReset_busy (s : State) : (s.blockReset).busy = false := rfl
@[simp] theorem State.blockReset_dir (s : State) : (s.blockReset).dir = none := rfl
@[simp] theorem State.blockReset_mirror (s : State) : (s.blockReset).mirror = none := rfl
@[simp] theorem State.blockReset_commands (s : State) : (s.blockReset).commands = s.commands := rfl
@[simp] theorem State.blockReset_oracle (s : State) : (s.blockReset).oracle = s.oracle := rfl
@[simp] theorem State.blockReset_timer (s : State) : (s.blockReset).timer = s.timer := rfl
@[simp] theorem State.blockReset_trace (s : State) : (s.blockReset).trace = s.trace := rfl
@[simp] theorem State.blockReset_responses (s : State) : (s.blockReset).responses = s.responses := rfl

@[simp] theorem State.answerIllegal_eq (s : State) : s.answerIllegal = s.respond illegalResponse := rfl

@[simp] theorem State.ran_dirValue (s : State) (n : Nat) (evs : List Event) : (s.ran n evs).dirValue = s.dirValue := rfl

@[simp] theorem State.ran_mirrorOn (s : State) (n : Nat) (evs : List Event) : (s.ran n evs).mirrorOn = s.mirrorOn := rfl

/-- A read of a held `dir` gives it. -/
theorem State.dirValue_some (s : State) (d : Word16) (h : s.dir = some d) : s.dirValue = d := by
  simp [State.dirValue, h]

/-- A read of a held `mirror` gives it. -/
theorem State.mirrorOn_some (s : State) (m : Feature) (h : s.mirror = some m) : s.mirrorOn = featureBit m := by
  simp [State.mirrorOn, h]

/-- The command port accepts exactly when the block is idle and a word is presented (R26, R60). -/
theorem State.accept_idle (s : State) (w : CommandWord) (rest : List CommandWord) (hb : s.busy = false)
    (hc : s.commands = w :: rest) : s.accept = some (w, { s with busy := true, commands := rest }) := by
  simp [State.accept, hb, hc]

/-- Everything `accept` can do. -/
theorem State.accept_cases (s : State) :
    (s.accept = none ∧ (s.busy = true ∨ s.commands = [])) ∨
    ∃ w rest, s.busy = false ∧ s.commands = w :: rest ∧
      s.accept = some (w, { s with busy := true, commands := rest }) := by
  cases hb : s.busy <;> cases hc : s.commands <;> simp [State.accept, hb, hc]

end Sys2Proof.Machine
end

