-- ==== Sys2Proof/Laws/Bus.lean ====
section
/-! SUPPORT. What the bus operations of Machine/Ops.lean can do, said once: how each primitive ends for each answer, and three properties that every piece of pseudocode inherits from its parts (which fields it keeps, what it adds to the trace, that it never reads the history). -/

namespace Sys2Proof.Machine

/-! ### The oracle -/

@[simp] theorem Oracle.peek_skip (o : Oracle) (n k : Nat) : (o.skip n).peek k = o.peek (n + k) := by
  simp [Oracle.peek, Oracle.skip, List.getD_eq_getElem?_getD, Nat.add_assoc]

@[simp] theorem Oracle.skip_skip (o : Oracle) (m n : Nat) : (o.skip m).skip n = o.skip (m + n) := by
  simp [Oracle.skip, Nat.add_assoc]

@[simp] theorem Oracle.skip_zero (o : Oracle) : o.skip 0 = o := rfl

@[simp] theorem Timer.peek_skip (t : Timer) (n k : Nat) : (t.skip n).peek k = t.peek (n + k) := by
  simp [Timer.peek, Timer.skip, List.getD_eq_getElem?_getD, Nat.add_assoc]

@[simp] theorem Timer.skip_skip (t : Timer) (m n : Nat) : (t.skip m).skip n = t.skip (m + n) := by
  simp [Timer.skip, Nat.add_assoc]

@[simp] theorem Timer.skip_zero (t : Timer) : t.skip 0 = t := rfl

/-- An ok answer carries a byte. -/
theorem isOk_iff (a : BusAnswer) : isOk a = true ↔ ∃ v, a = .ok v := by
  cases a <;> simp [isOk]

/-! ### Runs of transactions -/

@[simp] theorem State.ran_ran (s : State) (m n : Nat) (xs ys : List Event) :
    (s.ran m xs).ran n ys = s.ran (m + n) (xs ++ ys) := by
  simp [State.ran]

theorem State.ran_zero (s : State) : s.ran 0 [] = s := by
  simp [State.ran]

theorem State.transact_eq_ran (s : State) (q : Request) (a : Answer) : s.transact q a = s.ran 1 [⟨q, a⟩] := rfl

@[simp] theorem State.waited_waited (s : State) (m n : Nat) : (s.waited m).waited n = s.waited (m + n) := by
  simp [State.waited]

@[simp] theorem State.waited_zero (s : State) : s.waited 0 = s := rfl

/-- A run after PAUSEs is the PAUSEs after the run: the two touch different fields. -/
@[simp] theorem State.ran_waited (s : State) (k n : Nat) (evs : List Event) :
    (s.waited k).ran n evs = (s.ran n evs).waited k := rfl

theorem pause_done (ms : Nat) (s : State) (h : s.timer.peek 0 = true) :
    pause ms s = (.value (), (s.ran 0 [paused ms]).waited 1) := by
  simp [pause, h, State.pausing, State.ran, State.waited, paused]

theorem pause_silent (ms : Nat) (s : State) (h : s.timer.peek 0 = false) :
    pause ms s = (.waiting, (s.ran 0 [pauseSilent ms]).waited 1) := by
  simp [pause, h, State.pausing, State.ran, State.waited, pauseSilent]

theorem memRead_ok (r v : Byte) (s : State) (h : s.oracle.peek 0 = .ok v) :
    memRead r s = (.value v, s.ran 1 [readOk r v]) := by
  simp [memRead, h, State.transact_eq_ran, readOk]

theorem memRead_fail (r : Byte) (s : State) (h : s.oracle.peek 0 = .fail) :
    memRead r s = (.raised .transport, s.ran 1 [readFail r]) := by
  simp [memRead, h, State.transact_eq_ran, readFail]

theorem memRead_silent (r : Byte) (s : State) (h : s.oracle.peek 0 = .silent) :
    memRead r s = (.waiting, s.ran 1 [⟨.read r, .unanswered⟩]) := by
  simp [memRead, h, State.transact_eq_ran]

theorem command_ok (q : Request) (s : State) (h : isOk (s.oracle.peek 0) = true) :
    command q s = (.value (), s.ran 1 [⟨q, .ok⟩]) := by
  obtain ⟨v, hv⟩ := (isOk_iff _).1 h
  simp [command, hv, State.transact_eq_ran]

theorem command_fail (q : Request) (s : State) (h : s.oracle.peek 0 = .fail) :
    command q s = (.raised .transport, s.ran 1 [⟨q, .fail⟩]) := by
  simp [command, h, State.transact_eq_ran]

theorem command_silent (q : Request) (s : State) (h : s.oracle.peek 0 = .silent) :
    command q s = (.waiting, s.ran 1 [⟨q, .unanswered⟩]) := by
  simp [command, h, State.transact_eq_ran]

theorem memWrite_ok (r v : Byte) (s : State) (h : isOk (s.oracle.peek 0) = true) :
    memWrite r v s = (.value (), s.ran 1 [writeOk r v]) := command_ok _ _ h

theorem memWrite_fail (r v : Byte) (s : State) (h : s.oracle.peek 0 = .fail) :
    memWrite r v s = (.raised .transport, s.ran 1 [writeFail r v]) := command_fail _ _ h

theorem setAddr_ok (a : Byte) (s : State) (h : isOk (s.oracle.peek 0) = true) :
    setAddr a s = (.value (), s.ran 1 [setAddrOk a]) := command_ok _ _ h

/-! ### Sequencing -/

@[simp] theorem ret_apply {α : Type} (a : α) (s : State) : ret a s = (.value a, s) := rfl

@[simp] theorem raise_apply {α : Type} (e : Error) (s : State) : (raise e : Bus α) s = (.raised e, s) := rfl

theorem andThen_value {α β : Type} (m : Bus α) (f : α → Bus β) (s t : State) (a : α) (h : m s = (.value a, t)) :
    andThen m f s = f a t := by
  simp [andThen, h]

theorem andThen_raised {α β : Type} (m : Bus α) (f : α → Bus β) (s t : State) (e : Error) (h : m s = (.raised e, t)) :
    andThen m f s = (.raised e, t) := by
  simp [andThen, h]

theorem andThen_waiting {α β : Type} (m : Bus α) (f : α → Bus β) (s t : State) (h : m s = (.waiting, t)) :
    andThen m f s = (.waiting, t) := by
  simp [andThen, h]

theorem catchTransport_value {α : Type} (m g : Bus α) (s t : State) (a : α) (h : m s = (.value a, t)) :
    catchTransport m g s = (.value a, t) := by
  simp [catchTransport, h]

theorem catchTransport_transport {α : Type} (m g : Bus α) (s t : State) (h : m s = (.raised .transport, t)) :
    catchTransport m g s = g t := by
  simp [catchTransport, h]

/-- Everything `andThen` can do. -/
theorem andThen_cases {α β : Type} (m : Bus α) (f : α → Bus β) (s : State) :
    (∃ a t, m s = (.value a, t) ∧ andThen m f s = f a t) ∨
    (∃ e t, m s = (.raised e, t) ∧ andThen m f s = (.raised e, t)) ∨
    (∃ t, m s = (.waiting, t) ∧ andThen m f s = (.waiting, t)) := by
  rcases h : m s with ⟨a | e | _, t⟩
  · exact .inl ⟨a, t, rfl, andThen_value m f s t a h⟩
  · exact .inr (.inl ⟨e, t, rfl, andThen_raised m f s t e h⟩)
  · exact .inr (.inr ⟨t, rfl, andThen_waiting m f s t h⟩)

/-- Everything `catchTransport` can do. -/
theorem catchTransport_cases {α : Type} (m g : Bus α) (s : State) :
    (∃ t, m s = (.raised .transport, t) ∧ catchTransport m g s = g t) ∨
    ((m s).1 ≠ .raised .transport ∧ catchTransport m g s = m s) := by
  rcases h : m s with ⟨a | e | _, t⟩
  · exact .inr ⟨by simp, by simp [catchTransport, h]⟩
  · cases e
    · exact .inl ⟨t, rfl, by simp [catchTransport, h]⟩
    · exact .inr ⟨by simp, by simp [catchTransport, h]⟩
    · exact .inr ⟨by simp, by simp [catchTransport, h]⟩
  · exact .inr ⟨by simp, by simp [catchTransport, h]⟩

/-- Everything a READ can do. -/
theorem memRead_cases (r : Byte) (s : State) :
    (∃ v, s.oracle.peek 0 = .ok v ∧ memRead r s = (.value v, s.ran 1 [readOk r v])) ∨
    (s.oracle.peek 0 = .fail ∧ memRead r s = (.raised .transport, s.ran 1 [readFail r])) ∨
    (s.oracle.peek 0 = .silent ∧ memRead r s = (.waiting, s.ran 1 [⟨.read r, .unanswered⟩])) := by
  cases h : s.oracle.peek 0 with
  | ok v => exact .inl ⟨v, rfl, memRead_ok r v s h⟩
  | fail => exact .inr (.inl ⟨rfl, memRead_fail r s h⟩)
  | silent => exact .inr (.inr ⟨rfl, memRead_silent r s h⟩)

/-- Everything a WRITE or SETADDR can do. -/
theorem command_cases (q : Request) (s : State) :
    (isOk (s.oracle.peek 0) = true ∧ command q s = (.value (), s.ran 1 [⟨q, .ok⟩])) ∨
    (s.oracle.peek 0 = .fail ∧ command q s = (.raised .transport, s.ran 1 [⟨q, .fail⟩])) ∨
    (s.oracle.peek 0 = .silent ∧ command q s = (.waiting, s.ran 1 [⟨q, .unanswered⟩])) := by
  cases h : s.oracle.peek 0 with
  | ok v => exact .inl ⟨rfl, command_ok q s (by simp [h, isOk])⟩
  | fail => exact .inr (.inl ⟨rfl, command_fail q s h⟩)
  | silent => exact .inr (.inr ⟨rfl, command_silent q s h⟩)

/-- Everything a PAUSE can do. -/
theorem pause_cases (ms : Nat) (s : State) :
    (s.timer.peek 0 = true ∧ pause ms s = (.value (), (s.ran 0 [paused ms]).waited 1)) ∨
    (s.timer.peek 0 = false ∧ pause ms s = (.waiting, (s.ran 0 [pauseSilent ms]).waited 1)) := by
  cases h : s.timer.peek 0 with
  | true => exact .inl ⟨rfl, pause_done ms s h⟩
  | false => exact .inr ⟨rfl, pause_silent ms s h⟩

/-! ### Keeping a part of the state -/

/-- The pseudocode leaves a part of the state as it was, however it ends. -/
def Keeps {α β : Type} (f : State → β) (m : Bus α) : Prop := ∀ s, f (m s).2 = f s

theorem keeps_ret {α β : Type} (f : State → β) (a : α) : Keeps f (ret a) := fun _ => rfl

theorem keeps_raise {α β : Type} (f : State → β) (e : Error) : Keeps f (raise e : Bus α) := fun _ => rfl

theorem keeps_andThen {α β γ : Type} {f : State → γ} {m : Bus α} {g : α → Bus β} (hm : Keeps f m)
    (hg : ∀ a, Keeps f (g a)) : Keeps f (andThen m g) := by
  intro s
  have h0 := hm s
  rcases andThen_cases m g s with ⟨a, t, h, e⟩ | ⟨x, t, h, e⟩ | ⟨t, h, e⟩
  · rw [e, hg a t, ← h0, h]
  · rw [e, ← h0, h]
  · rw [e, ← h0, h]

theorem keeps_catchTransport {α γ : Type} {f : State → γ} {m g : Bus α} (hm : Keeps f m) (hg : Keeps f g) :
    Keeps f (catchTransport m g) := by
  intro s
  rcases catchTransport_cases m g s with ⟨t, h, e⟩ | ⟨_, e⟩
  · rw [e, hg t, ← hm s, h]
  · rw [e, hm s]

theorem keeps_memRead {γ : Type} {f : State → γ} (hf : ∀ s n evs, f (State.ran s n evs) = f s) (r : Byte) :
    Keeps f (memRead r) := by
  intro s
  rcases memRead_cases r s with ⟨v, _, e⟩ | ⟨_, e⟩ | ⟨_, e⟩ <;> simp [e, hf]

theorem keeps_command {γ : Type} {f : State → γ} (hf : ∀ s n evs, f (State.ran s n evs) = f s) (q : Request) :
    Keeps f (command q) := by
  intro s
  rcases command_cases q s with ⟨_, e⟩ | ⟨_, e⟩ | ⟨_, e⟩ <;> simp [e, hf]

theorem keeps_pause {γ : Type} {f : State → γ} (hf : ∀ s n evs, f (State.ran s n evs) = f s)
    (hw : ∀ s n, f (State.waited s n) = f s) (ms : Nat) : Keeps f (pause ms) := by
  intro s
  rcases pause_cases ms s with ⟨_, e⟩ | ⟨_, e⟩ <;> simp only [e, hw, hf]

theorem keeps_rmw {γ : Type} {f : State → γ} (hf : ∀ s n evs, f (State.ran s n evs) = f s) (r : Byte) (p : Pin) (v : Bool)
    (kc : Option Byte) : Keeps f (rmw r p v kc) := by
  refine keeps_andThen ?_ fun cur => keeps_andThen (keeps_command hf _) fun _ => keeps_ret f _
  cases kc with
  | none => exact keeps_memRead hf r
  | some k => exact keeps_ret f k

/-! ### What joins the trace -/

/-- How the pseudocode's end fits the events it added: completed or raised with every event answered, or waiting on the last
event, which alone is unanswered. -/
def endFits {α : Type} (e : Ended α) (evs : List Event) : Prop :=
  (e ≠ .waiting ∧ ∀ x ∈ evs, x.answer ≠ .unanswered) ∨
  (e = .waiting ∧ ∃ q before, evs = before ++ [⟨q, .unanswered⟩] ∧ ∀ x ∈ before, x.answer ≠ .unanswered)

/-- How many answers of the bus oracle a list of events drew: one for each event but PAUSE. -/
def drawCount (evs : List Event) : Nat := evs.countP fun e => !isPause e

/-- How many PAUSEs a list of events holds. -/
def pauseCount (evs : List Event) : Nat := evs.countP isPause

@[simp] theorem drawCount_append (xs ys : List Event) : drawCount (xs ++ ys) = drawCount xs + drawCount ys := by
  simp [drawCount]

@[simp] theorem pauseCount_append (xs ys : List Event) : pauseCount (xs ++ ys) = pauseCount xs + pauseCount ys := by
  simp [pauseCount]

/-- What a piece of pseudocode adds to the trace: well-formed events that meet `P`, one answer drawn for each, of the timer for
a PAUSE and of the bus oracle for any other. -/
def Traces {α : Type} (P : Event → Prop) (m : Bus α) : Prop :=
  ∀ s, ∃ evs, (m s).2.trace = s.trace ++ evs ∧
    ((m s).2.oracle = s.oracle.skip (drawCount evs) ∧ (m s).2.timer = s.timer.skip (pauseCount evs)) ∧
    (∀ x ∈ evs, P x ∧ eventFormed x = true) ∧ endFits (m s).1 evs

theorem traces_ret {α : Type} (P : Event → Prop) (a : α) : Traces P (ret a) := fun s =>
  ⟨[], by simp, by simp [drawCount, pauseCount], by simp, .inl ⟨by simp, by simp⟩⟩

theorem traces_raise {α : Type} (P : Event → Prop) (e : Error) : Traces P (raise e : Bus α) := fun s =>
  ⟨[], by simp, by simp [drawCount, pauseCount], by simp, .inl ⟨by simp, by simp⟩⟩

theorem traces_andThen {α β : Type} {P : Event → Prop} {m : Bus α} {g : α → Bus β} (hm : Traces P m)
    (hg : ∀ a, Traces P (g a)) : Traces P (andThen m g) := by
  intro s
  obtain ⟨xs, ht, ho, hp, he⟩ := hm s
  rcases andThen_cases m g s with ⟨a, t, h, e⟩ | ⟨x, t, h, e⟩ | ⟨t, h, e⟩
  · rw [h] at ht ho he
    obtain ⟨ys, ht', ho', hp', he'⟩ := hg a t
    have hx : ∀ x ∈ xs, x.answer ≠ .unanswered := by
      rcases he with ⟨_, hx⟩ | ⟨hw, _⟩
      · exact hx
      · cases hw
    refine ⟨xs ++ ys, ?_, ?_, ?_, ?_⟩
    · rw [e, ht', ht, List.append_assoc]
    · rw [e, ho'.1, ho'.2, ho.1, ho.2]
      simp
    · intro x hx
      rcases List.mem_append.1 hx with h1 | h1
      · exact hp x h1
      · exact hp' x h1
    · rw [e]
      rcases he' with ⟨hw, hy⟩ | ⟨hw, q, before, rfl, hb⟩
      · refine .inl ⟨hw, fun x hxy => ?_⟩
        rcases List.mem_append.1 hxy with h1 | h1
        · exact hx x h1
        · exact hy x h1
      · refine .inr ⟨hw, q, xs ++ before, by simp, fun x hxy => ?_⟩
        rcases List.mem_append.1 hxy with h1 | h1
        · exact hx x h1
        · exact hb x h1
  · rw [h] at ht ho he
    refine ⟨xs, by rw [e, ht], by rw [e]; exact ho, hp, ?_⟩
    rw [e]
    rcases he with ⟨_, hx⟩ | ⟨hw, _⟩
    · exact .inl ⟨by simp, hx⟩
    · cases hw
  · rw [h] at ht ho he
    refine ⟨xs, by rw [e, ht], by rw [e]; exact ho, hp, ?_⟩
    rw [e]
    rcases he with ⟨hw, _⟩ | ⟨_, hx⟩
    · exact absurd rfl hw
    · exact .inr ⟨rfl, hx⟩

theorem traces_catchTransport {α : Type} {P : Event → Prop} {m g : Bus α} (hm : Traces P m) (hg : Traces P g) :
    Traces P (catchTransport m g) := by
  intro s
  rcases catchTransport_cases m g s with ⟨t, h, e⟩ | ⟨_, e⟩
  · obtain ⟨xs, ht, ho, hp, he⟩ := hm s
    rw [h] at ht ho he
    obtain ⟨ys, ht', ho', hp', he'⟩ := hg t
    have hx : ∀ x ∈ xs, x.answer ≠ .unanswered := by
      rcases he with ⟨_, hx⟩ | ⟨hw, _⟩
      · exact hx
      · cases hw
    refine ⟨xs ++ ys, by rw [e, ht', ht, List.append_assoc], by rw [e, ho'.1, ho'.2, ho.1, ho.2]; simp, ?_, ?_⟩
    · intro x hx
      rcases List.mem_append.1 hx with h1 | h1
      · exact hp x h1
      · exact hp' x h1
    · rw [e]
      rcases he' with ⟨hw, hy⟩ | ⟨hw, q, before, rfl, hb⟩
      · refine .inl ⟨hw, fun x hxy => ?_⟩
        rcases List.mem_append.1 hxy with h1 | h1
        · exact hx x h1
        · exact hy x h1
      · refine .inr ⟨hw, q, xs ++ before, by simp, fun x hxy => ?_⟩
        rcases List.mem_append.1 hxy with h1 | h1
        · exact hx x h1
        · exact hb x h1
  · rw [e]
    exact hm s

theorem traces_memRead {P : Event → Prop} (r : Byte) (hP : ∀ a, P ⟨.read r, a⟩) : Traces P (memRead r) := by
  intro s
  rcases memRead_cases r s with ⟨v, _, e⟩ | ⟨_, e⟩ | ⟨_, e⟩ <;> rw [e]
  · exact ⟨[readOk r v], rfl, ⟨rfl, rfl⟩, by simp [readOk, hP, eventFormed], .inl ⟨by simp, by simp [readOk]⟩⟩
  · exact ⟨[readFail r], rfl, ⟨rfl, rfl⟩, by simp [readFail, hP, eventFormed], .inl ⟨by simp, by simp [readFail]⟩⟩
  · exact ⟨[⟨.read r, .unanswered⟩], rfl, ⟨rfl, rfl⟩, by simp [hP, eventFormed], .inr ⟨rfl, _, [], rfl, by simp⟩⟩

theorem traces_memWrite {P : Event → Prop} (r v : Byte) (hP : ∀ a, P ⟨.write r v, a⟩) : Traces P (memWrite r v) := by
  intro s
  rcases command_cases (.write r v) s with ⟨_, e⟩ | ⟨_, e⟩ | ⟨_, e⟩ <;> rw [memWrite, e]
  · exact ⟨[⟨.write r v, .ok⟩], rfl, ⟨rfl, rfl⟩, by simp [hP, eventFormed], .inl ⟨by simp, by simp⟩⟩
  · exact ⟨[⟨.write r v, .fail⟩], rfl, ⟨rfl, rfl⟩, by simp [hP, eventFormed], .inl ⟨by simp, by simp⟩⟩
  · exact ⟨[⟨.write r v, .unanswered⟩], rfl, ⟨rfl, rfl⟩, by simp [hP, eventFormed], .inr ⟨rfl, _, [], rfl, by simp⟩⟩

theorem traces_setAddr {P : Event → Prop} (a : Byte) (hP : ∀ x, P ⟨.setAddr a, x⟩) : Traces P (setAddr a) := by
  intro s
  rcases command_cases (.setAddr a) s with ⟨_, e⟩ | ⟨_, e⟩ | ⟨_, e⟩ <;> rw [setAddr, e]
  · exact ⟨[⟨.setAddr a, .ok⟩], rfl, ⟨rfl, rfl⟩, by simp [hP, eventFormed], .inl ⟨by simp, by simp⟩⟩
  · exact ⟨[⟨.setAddr a, .fail⟩], rfl, ⟨rfl, rfl⟩, by simp [hP, eventFormed], .inl ⟨by simp, by simp⟩⟩
  · exact ⟨[⟨.setAddr a, .unanswered⟩], rfl, ⟨rfl, rfl⟩, by simp [hP, eventFormed], .inr ⟨rfl, _, [], rfl, by simp⟩⟩

theorem traces_pause {P : Event → Prop} (ms : Nat) (hP : P (paused ms)) (hS : P (pauseSilent ms)) :
    Traces P (pause ms) := by
  intro s
  rcases pause_cases ms s with ⟨_, e⟩ | ⟨_, e⟩ <;> rw [e]
  · exact ⟨[paused ms], rfl, ⟨rfl, rfl⟩, by simp [hP]; rfl, .inl ⟨by simp, by simp [paused]⟩⟩
  · exact ⟨[pauseSilent ms], rfl, ⟨rfl, rfl⟩, by simp [hS]; rfl, .inr ⟨rfl, _, [], rfl, by simp⟩⟩

/-- Writing a register of the block joins nothing to the trace. -/
theorem traces_write {P : Event → Prop} (f : State → State) (ht : ∀ s, (f s).trace = s.trace)
    (ho : ∀ s, (f s).oracle = s.oracle) (hm : ∀ s, (f s).timer = s.timer) :
    Traces P (fun s => (Ended.value (), f s)) := fun s =>
  ⟨[], by simp [ht], by simp [ho, hm, drawCount, pauseCount], by simp, .inl ⟨by simp, by simp⟩⟩

theorem traces_rmw {P : Event → Prop} (r : Byte) (p : Pin) (v : Bool) (kc : Option Byte) (hr : ∀ a, P ⟨.read r, a⟩)
    (hw : ∀ x a, P ⟨.write r x, a⟩) : Traces P (rmw r p v kc) := by
  refine traces_andThen ?_ fun cur => traces_andThen (traces_memWrite r _ (hw _)) fun _ => traces_ret P _
  cases kc with
  | none => exact traces_memRead r hr
  | some k => exact traces_ret P k

/-! ### A failure is the last transaction -/

/-- What an uncaught failure does (R44, R147): pseudocode that completed or waits has met no failure, and a failure it met is its
last event and was raised as Transport. -/
def failFits {α : Type} (e : Ended α) (evs : List Event) : Prop :=
  (∀ x ∈ evs, x.answer ≠ .fail) ∨
  (e = .raised .transport ∧ ∃ x before, evs = before ++ [x] ∧ x.answer = .fail ∧ ∀ y ∈ before, y.answer ≠ .fail)

/-- Every failure the pseudocode meets ends it. -/
def FailsLast {α : Type} (m : Bus α) : Prop :=
  ∀ s, ∃ evs, (m s).2.trace = s.trace ++ evs ∧ failFits (m s).1 evs

theorem failsLast_ret {α : Type} (a : α) : FailsLast (ret a) := fun s => ⟨[], by simp, .inl (by simp)⟩

theorem failsLast_raise {α : Type} (e : Error) : FailsLast (raise e : Bus α) := fun s => ⟨[], by simp, .inl (by simp)⟩

theorem failsLast_andThen {α β : Type} {m : Bus α} {g : α → Bus β} (hm : FailsLast m) (hg : ∀ a, FailsLast (g a)) :
    FailsLast (andThen m g) := by
  intro s
  obtain ⟨xs, ht, he⟩ := hm s
  rcases andThen_cases m g s with ⟨a, t, h, e⟩ | ⟨x, t, h, e⟩ | ⟨t, h, e⟩
  · rw [h] at ht he
    obtain ⟨ys, ht', he'⟩ := hg a t
    have hx : ∀ x ∈ xs, x.answer ≠ .fail := by
      rcases he with hx | ⟨hw, _⟩
      · exact hx
      · cases hw
    refine ⟨xs ++ ys, by rw [e, ht', ht, List.append_assoc], ?_⟩
    rw [e]
    rcases he' with hy | ⟨hw, x, before, rfl, hx', hb⟩
    · refine .inl fun x hxy => ?_
      rcases List.mem_append.1 hxy with h1 | h1
      · exact hx x h1
      · exact hy x h1
    · refine .inr ⟨hw, x, xs ++ before, by simp, hx', fun y hxy => ?_⟩
      rcases List.mem_append.1 hxy with h1 | h1
      · exact hx y h1
      · exact hb y h1
  · rw [h] at ht he
    refine ⟨xs, by rw [e, ht], ?_⟩
    rw [e]
    rcases he with hx | ⟨hw, hx⟩
    · exact .inl hx
    · cases hw
      exact .inr ⟨rfl, hx⟩
  · rw [h] at ht he
    refine ⟨xs, by rw [e, ht], ?_⟩
    rcases he with hx | ⟨hw, _⟩
    · exact .inl hx
    · cases hw

theorem failsLast_memRead (r : Byte) : FailsLast (memRead r) := by
  intro s
  rcases memRead_cases r s with ⟨v, _, e⟩ | ⟨_, e⟩ | ⟨_, e⟩ <;> rw [e]
  · exact ⟨[readOk r v], rfl, .inl (by simp [readOk])⟩
  · exact ⟨[readFail r], rfl, .inr ⟨rfl, readFail r, [], rfl, rfl, by simp⟩⟩
  · exact ⟨[⟨.read r, .unanswered⟩], rfl, .inl (by simp)⟩

theorem failsLast_command (q : Request) : FailsLast (command q) := by
  intro s
  rcases command_cases q s with ⟨_, e⟩ | ⟨_, e⟩ | ⟨_, e⟩ <;> rw [e]
  · exact ⟨[⟨q, .ok⟩], rfl, .inl (by simp)⟩
  · exact ⟨[⟨q, .fail⟩], rfl, .inr ⟨rfl, ⟨q, .fail⟩, [], rfl, rfl, by simp⟩⟩
  · exact ⟨[⟨q, .unanswered⟩], rfl, .inl (by simp)⟩

theorem failsLast_pause (ms : Nat) : FailsLast (pause ms) := by
  intro s
  rcases pause_cases ms s with ⟨_, e⟩ | ⟨_, e⟩ <;> rw [e]
  · exact ⟨[paused ms], rfl, .inl (by simp [paused])⟩
  · exact ⟨[pauseSilent ms], rfl, .inl (by simp [pauseSilent])⟩

theorem failsLast_write (f : State → State) (ht : ∀ s, (f s).trace = s.trace) :
    FailsLast (fun s => (Ended.value (), f s)) := fun s => ⟨[], by simp [ht], .inl (by simp)⟩

theorem failsLast_rmw (r : Byte) (p : Pin) (v : Bool) (kc : Option Byte) : FailsLast (rmw r p v kc) := by
  refine failsLast_andThen ?_ fun cur => failsLast_andThen (failsLast_command _) fun _ => failsLast_ret _
  cases kc with
  | none => exact failsLast_memRead r
  | some k => exact failsLast_ret k

/-! ### The history is not read -/

/-- The state with other events and responses before its own. -/
def State.withHistory (s : State) (h : List Event) (rs : List ResponseWord) : State :=
  { s with trace := h ++ s.trace, responses := rs ++ s.responses }

/-- The pseudocode does the same whatever history stands before it. -/
def HistoryFree {α : Type} (m : Bus α) : Prop :=
  ∀ s h rs, m (s.withHistory h rs) = ((m s).1, (m s).2.withHistory h rs)

theorem State.ran_withHistory (s : State) (h : List Event) (rs : List ResponseWord) (n : Nat) (evs : List Event) :
    (s.withHistory h rs).ran n evs = (s.ran n evs).withHistory h rs := by
  simp [State.ran, State.withHistory]

theorem historyFree_ret {α : Type} (a : α) : HistoryFree (ret a) := fun _ _ _ => rfl

theorem historyFree_raise {α : Type} (e : Error) : HistoryFree (raise e : Bus α) := fun _ _ _ => rfl

theorem historyFree_andThen {α β : Type} {m : Bus α} {g : α → Bus β} (hm : HistoryFree m)
    (hg : ∀ a, HistoryFree (g a)) : HistoryFree (andThen m g) := by
  intro s h rs
  have h0 := hm s h rs
  rcases hms : m s with ⟨a | e | _, t⟩
  · rw [hms] at h0
    rw [andThen_value _ _ _ _ _ h0, andThen_value _ _ _ _ _ hms, hg a t h rs]
  · rw [hms] at h0
    rw [andThen_raised _ _ _ _ _ h0, andThen_raised _ _ _ _ _ hms]
  · rw [hms] at h0
    rw [andThen_waiting _ _ _ _ h0, andThen_waiting _ _ _ _ hms]

theorem historyFree_catchTransport {α : Type} {m g : Bus α} (hm : HistoryFree m) (hg : HistoryFree g) :
    HistoryFree (catchTransport m g) := by
  intro s h rs
  have h0 := hm s h rs
  rcases hms : m s with ⟨a | e | _, t⟩ <;> rw [hms] at h0
  · simp [catchTransport, h0, hms]
  · cases e
    · simp [catchTransport, h0, hms, hg t h rs]
    · simp [catchTransport, h0, hms]
    · simp [catchTransport, h0, hms]
  · simp [catchTransport, h0, hms]

theorem historyFree_memRead (r : Byte) : HistoryFree (memRead r) := by
  intro s h rs
  have ho : (s.withHistory h rs).oracle = s.oracle := rfl
  cases hp : s.oracle.peek 0 with
  | ok v => simp [memRead_ok r v _ hp, memRead_ok r v (s.withHistory h rs) (ho ▸ hp), State.ran_withHistory]
  | fail => simp [memRead_fail r _ hp, memRead_fail r (s.withHistory h rs) (ho ▸ hp), State.ran_withHistory]
  | silent => simp [memRead_silent r _ hp, memRead_silent r (s.withHistory h rs) (ho ▸ hp), State.ran_withHistory]

theorem historyFree_command (q : Request) : HistoryFree (command q) := by
  intro s h rs
  have ho : (s.withHistory h rs).oracle = s.oracle := rfl
  cases hp : s.oracle.peek 0 with
  | ok v =>
    have h1 : isOk (s.oracle.peek 0) = true := by simp [hp, isOk]
    simp [command_ok q _ h1, command_ok q (s.withHistory h rs) (ho ▸ h1), State.ran_withHistory]
  | fail => simp [command_fail q _ hp, command_fail q (s.withHistory h rs) (ho ▸ hp), State.ran_withHistory]
  | silent => simp [command_silent q _ hp, command_silent q (s.withHistory h rs) (ho ▸ hp), State.ran_withHistory]

theorem historyFree_pause (ms : Nat) : HistoryFree (pause ms) := by
  intro s h rs
  have hh : (s.withHistory h rs).timer = s.timer := rfl
  rcases pause_cases ms s with ⟨ht, e⟩ | ⟨ht, e⟩
  · rw [e, pause_done ms _ (hh ▸ ht), State.ran_withHistory]
    rfl
  · rw [e, pause_silent ms _ (hh ▸ ht), State.ran_withHistory]
    rfl

theorem historyFree_rmw (r : Byte) (p : Pin) (v : Bool) (kc : Option Byte) : HistoryFree (rmw r p v kc) := by
  refine historyFree_andThen ?_ fun cur => historyFree_andThen (historyFree_command _) fun _ => historyFree_ret _
  cases kc with
  | none => exact historyFree_memRead r
  | some k => exact historyFree_ret k

end Sys2Proof.Machine
end

