-- ==== Sys2Proof/Laws/Codec.lean ====
section
/-! SUPPORT. What the pure functions of Machine/Operands.lean compute, bit by bit. -/

namespace Sys2Proof.Machine

/-- Every bit of a SET_BIT result (R83). -/
theorem getLsbD_setBit8 (b : Byte) (i : BitIndex) (v : Bool) (j : Nat) :
    (setBit8 b i v).getLsbD j = if j = i.toNat then v else b.getLsbD j := by
  have hi := i.isLt
  cases v
  · simp only [setBit8, Bool.false_eq_true, if_false, BitVec.getLsbD_and, BitVec.getLsbD_not, BitVec.getLsbD_shiftLeft,
      BitVec.getLsbD_one]
    by_cases hj : j < 8
    · by_cases e : j = i.toNat
      · subst e
        simp [hj]
      · simp only [e, if_false]
        by_cases hb : b.getLsbD j = true
        · simp [hb, hj]
          omega
        · simp [hb]
    · simp [BitVec.getLsbD_of_ge b j (Nat.le_of_not_lt hj)]
  · simp only [setBit8, if_true, BitVec.getLsbD_or, BitVec.getLsbD_shiftLeft, BitVec.getLsbD_one]
    by_cases e : j = i.toNat
    · subst e
      simp
      omega
    · simp [e]
      intro h1 h2
      omega

/-! ### The counts of R6: what the functions of the geometry are at its value column -/

/-- The bits of `lowBits`. -/
theorem getLsbD_lowBits (n j : Nat) : (lowBits n).getLsbD j = decide (j < 16 ∧ j < n) := by
  rw [lowBits, BitVec.getLsbD_ofNat, Nat.testBit_two_pow_sub_one]
  simp

/-- `zext_16` keeps the value (R7). -/
theorem zext16_eq_setWidth (b : Byte) : zext16 b = b.setWidth 16 := by revert b; decide

theorem getLsbD_zext16 (b : Byte) (j : Nat) : (zext16 b).getLsbD j = b.getLsbD j := by
  rw [zext16_eq_setWidth, BitVec.getLsbD_setWidth]
  by_cases h : j < 8
  · simp [show j < 16 by omega]
  · simp [BitVec.getLsbD_of_ge b j (Nat.le_of_not_lt h)]

/-- Every bit of a composed word (R45). -/
theorem getLsbD_composeBanks (a b : Byte) (j : Nat) :
    (composeBanks defaultGeometry a b).getLsbD j = if j < 8 then a.getLsbD j else b.getLsbD (j - 8) := by
  simp only [composeBanks, defaultGeometry, BitVec.getLsbD_or, BitVec.getLsbD_and, BitVec.getLsbD_shiftLeft,
    getLsbD_zext16, getLsbD_lowBits]
  by_cases h : j < 8
  · simp [h, show j < 16 by omega]
  · by_cases h2 : j < 16
    · simp [h, h2]
    · simp [h, h2, BitVec.getLsbD_of_ge b (j - 8) (by omega)]

/-- `{b, a}` (R45). -/
theorem composeBanks_default (a b : Byte) : composeBanks defaultGeometry a b = b ++ a := by
  apply BitVec.eq_of_getLsbD_eq
  intro j hj
  rw [getLsbD_composeBanks, BitVec.getLsbD_append]

/-- Every bit of a MERGE16 result (R84). -/
theorem getLsbD_merge16 (p : Pin) (w : Word16) (b : Byte) (j : Nat) :
    (merge16 defaultGeometry p w b).getLsbD j =
      if p.highHalf then (if j < 8 then w.getLsbD j else b.getLsbD (j - 8))
      else (if j < 8 then b.getLsbD j else w.getLsbD j) := by
  by_cases h2 : j < 16
  · cases hp : p.highHalf <;>
      simp only [merge16, hp, defaultGeometry, if_true, if_false, Bool.false_eq_true, BitVec.getLsbD_or, BitVec.getLsbD_and,
        BitVec.getLsbD_not, BitVec.getLsbD_shiftLeft, getLsbD_zext16, getLsbD_lowBits] <;>
      by_cases h : j < 8 <;> simp [h, h2]
  · rw [BitVec.getLsbD_of_ge _ _ (Nat.le_of_not_lt h2)]
    simp [show ¬ j < 8 by omega, BitVec.getLsbD_of_ge w j (by omega), BitVec.getLsbD_of_ge b (j - 8) (by omega)]

/-- `merge16` with its halves written out (R84). -/
theorem merge16_default (p : Pin) (w : Word16) (b : Byte) :
    merge16 defaultGeometry p w b = if p.highHalf then b ++ w.extractLsb' 0 8 else w.extractLsb' 8 8 ++ b := by
  apply BitVec.eq_of_getLsbD_eq
  intro j hj
  rw [getLsbD_merge16]
  cases p.highHalf
  · refine Eq.trans ?_ (BitVec.getLsbD_append (x := w.extractLsb' 8 8) (y := b)).symm
    by_cases h : j < 8
    · simp [h]
    · simp [h, show 8 + (j - 8) = j by omega, show j - 8 < 8 by omega]
  · refine Eq.trans ?_ (BitVec.getLsbD_append (x := b) (y := w.extractLsb' 0 8)).symm
    by_cases h : j < 8 <;> simp [h]

/-- The byte of a bank with its bits written out (R97). -/
theorem bankByte_default (p : Pin) (w : Word16) :
    bankByte defaultGeometry p w = if p.highHalf then w.extractLsb' 8 8 else w.extractLsb' 0 8 := by
  apply BitVec.eq_of_getLsbD_eq
  intro j hj
  cases hp : p.highHalf <;>
    simp only [bankByte, hp, defaultGeometry, if_true, if_false, Bool.false_eq_true, BitVec.getLsbD_extractLsb',
      BitVec.getLsbD_and, BitVec.getLsbD_ushiftRight, getLsbD_lowBits] <;>
    simp [hj, show j < 16 by omega]

/-- The direction word holds all sixteen bits (R22). -/
theorem dirWord_default (w : Word16) : dirWord defaultGeometry w = w := BitVec.and_allOnes

theorem pinExists_default (index : Nat) : pinExists defaultGeometry index = decide (index < 16) := by
  simp [pinExists, defaultGeometry]

@[simp] theorem pinOf_index (g : Geometry) (i : PinIndex) : (pinOf g i).index = i := rfl

/-- `bit_in_bank = idx mod 8` (R80). -/
theorem pinOf_bit (i : PinIndex) : (pinOf defaultGeometry i).bit.toNat = i.toNat % 8 := by revert i; decide

/-- `high_half` is bank B (R80). -/
theorem pinOf_highHalf (i : PinIndex) : (pinOf defaultGeometry i).highHalf = decide (8 ≤ i.toNat) := by revert i; decide

/-- The pin a bank's bit belongs to (R118). -/
theorem pinAt_default (bank : Bank) (i : BitIndex) :
    pinAt defaultGeometry bank i = BitVec.ofNat 4 (i.toNat + if bank = .A then 0 else 8) := by
  cases bank <;> revert i <;> decide

/-- A pin whose bit of the word is 1 is an Input (R82). -/
theorem modeOf_input (g : Geometry) (pin : PinIndex) (w : Word16) (h : w.getLsbD pin.toNat = true) :
    modeOf (pinOf g pin) w = .input := by
  simp only [modeOf, pinOf_index, h, modeOfBit, if_true]

/-- A pin whose bit of the word is 0 is an Output (R82). -/
theorem modeOf_output (g : Geometry) (pin : PinIndex) (w : Word16) (h : w.getLsbD pin.toNat = false) :
    modeOf (pinOf g pin) w = .output := by
  simp only [modeOf, pinOf_index, h, modeOfBit, Bool.false_eq_true, if_false]

end Sys2Proof.Machine
end

