-- ==== Sys2Proof/Laws/Encoding.lean ====
section
/-! SUPPORT. The fields of a packed command word, and a packed word under a mask. -/

namespace Sys2Proof

theorem getLsbD_packCommand (opc : Byte) (pin : PinIndex) (f0 f1 f2 f3 : Bool) (a8 b8 : Byte) (w16 : Word16) (j : Nat) :
    (packCommand opc pin f0 f1 f2 f3 a8 b8 w16).getLsbD j =
      (0#16 ++ w16 ++ b8 ++ a8 ++ BitVec.ofBool f3 ++ BitVec.ofBool f2 ++ BitVec.ofBool f1 ++ BitVec.ofBool f0 ++ pin ++
        opc).getLsbD j := rfl

/-- A packed word's fields are what it was packed from (R61). -/
theorem fields_packCommand (opc : Byte) (pin : PinIndex) (f0 f1 f2 f3 : Bool) (a8 b8 : Byte) (w16 : Word16) :
    let w := packCommand opc pin f0 f1 f2 f3 a8 b8 w16
    opcField w = opc ∧ pinField w = pin ∧ f0Field w = f0 ∧ f1Field w = f1 ∧ f2Field w = f2 ∧ f3Field w = f3 ∧
      a8Field w = a8 ∧ b8Field w = b8 ∧ w16Field w = w16 := by
  intro w
  unfold opcField pinField f0Field f1Field f2Field f3Field a8Field b8Field w16Field
  refine ⟨?_, ?_, ?_, ?_, ?_, ?_, ?_, ?_, ?_⟩ <;>
    first
    | (apply BitVec.eq_of_getLsbD_eq
       intro j hj
       rw [BitVec.getLsbD_extractLsb', getLsbD_packCommand]
       simp only [BitVec.getLsbD_append]
       interval_cases j <;> simp)
    | (rw [getLsbD_packCommand]
       simp only [BitVec.getLsbD_append]
       simp)

/-- A mask written field by field in the order of `packCommand`, RSV last. -/
def packMask (opc : Byte) (pin : PinIndex) (f0 f1 f2 f3 : Bool) (a8 b8 : Byte) (w16 rsv : Word16) : CommandWord :=
  rsv ++ w16 ++ b8 ++ a8 ++ BitVec.ofBool f3 ++ BitVec.ofBool f2 ++ BitVec.ofBool f1 ++ BitVec.ofBool f0 ++ pin ++ opc

/-- A packed word under a mask is packed from its fields under the mask's. -/
theorem packCommand_and_packMask (opc opc' : Byte) (pin pin' : PinIndex) (f0 f1 f2 f3 f0' f1' f2' f3' : Bool)
    (a8 b8 a8' b8' : Byte) (w16 w16' rsv' : Word16) :
    packCommand opc pin f0 f1 f2 f3 a8 b8 w16 &&& packMask opc' pin' f0' f1' f2' f3' a8' b8' w16' rsv' =
      packCommand (opc &&& opc') (pin &&& pin') (f0 && f0') (f1 && f1') (f2 && f2') (f3 && f3') (a8 &&& a8')
        (b8 &&& b8') (w16 &&& w16') := by
  have e : (0#16 : BitVec 16) &&& rsv' = 0#16 := by simp
  have key : ((0#16 ++ w16 ++ b8 ++ a8 ++ BitVec.ofBool f3 ++ BitVec.ofBool f2 ++ BitVec.ofBool f1 ++ BitVec.ofBool f0 ++
      pin ++ opc) &&& (rsv' ++ w16' ++ b8' ++ a8' ++ BitVec.ofBool f3' ++ BitVec.ofBool f2' ++ BitVec.ofBool f1' ++
      BitVec.ofBool f0' ++ pin' ++ opc')) = (0#16 ++ (w16 &&& w16') ++ (b8 &&& b8') ++ (a8 &&& a8') ++
      BitVec.ofBool (f3 && f3') ++ BitVec.ofBool (f2 && f2') ++ BitVec.ofBool (f1 && f1') ++ BitVec.ofBool (f0 && f0') ++
      (pin &&& pin') ++ (opc &&& opc')) := by
    simp only [BitVec.and_append, BitVec.ofBool_and_ofBool, e]
  exact key

theorem packCommand_zero : packCommand 0 0 false false false false 0 0 0 = 0 := by decide

/-- The OPC value of an opcode selects it, and no other value does (R62). -/
theorem opcodeOfByte_opcodeByte (op : Opcode) : opcodeOfByte (opcodeByte op) = some op := by cases op <;> rfl

theorem opcodeByte_of_opcodeOfByte (b : Byte) (op : Opcode) (h : opcodeOfByte b = some op) : opcodeByte op = b := by
  revert op b
  decide +revert

/-- A device address fits ADDR_BITS bits exactly when it has none of the bits above them (R136). -/
theorem addr_fits_iff (c : Config) (a : Byte) : a.toNat < 2 ^ c.addrBits ↔ a &&& addrZeroBits c = 0 := by
  unfold addrZeroBits
  by_cases h : c.addrBits < 8
  · generalize c.addrBits = n at h
    revert a
    interval_cases n <;> decide
  · have h8 : 8 ≤ c.addrBits := Nat.le_of_not_lt h
    have h1 : (0xFF#8 <<< c.addrBits : Byte) = 0 := BitVec.shiftLeft_eq_zero h8
    have h2 : a.toNat < 2 ^ c.addrBits := Nat.lt_of_lt_of_le a.isLt (Nat.pow_le_pow_right (by decide) h8)
    simp [h1, h2]

end Sys2Proof
end

