-- ==== Sys2Proof/Laws/Exec.lean ====
section
/-! SUPPORT. What a command and a step can do, said once: every command is the construction check, then its pseudocode, then its conclusion. -/

namespace Sys2Proof.Machine

/-- The pseudocode of each command, run from the state s it starts in. -/
def program (s : State) : Instr → Bus Response
  | .pinDecode index =>
    ret (if pinExists s.config.geometry index.toNat then
        { present := true, pin := index.extractLsb' 0 4,
          data := pinData (pinOf s.config.geometry (index.extractLsb' 0 4)) }
      else { })
  | .pinMode pin word => ret { pin := pin, bit := modeBit (modeOf (pinOf s.config.geometry pin) word) }
  | .setBit byte index value => ret { data := zext16 (setBit8 byte index value) }
  | .merge16 pin word byte => ret { data := merge16 s.config.geometry (pinOf s.config.geometry pin) word byte }
  | .rmw r pin value known => andThen (rmw r (pinOf s.config.geometry pin) value known) fun new => ret { data := zext16 new }
  | .setDirection pin mode => setDirection s.config s.dirValue (pinOf s.config.geometry pin) mode
  | .setPullUp pin level => setPullUp s.config (pinOf s.config.geometry pin) level
  | .writeOutput pin level => writeOutput s.config s.dirValue (pinOf s.config.geometry pin) level
  | .readInput pin => readInput s.config s.dirValue (pinOf s.config.geometry pin)
  | .readCurrent pin => readPin s.config (pinOf s.config.geometry pin)
  | .cfgSysInt mirror polarity => cfgSysInt s.config mirror polarity
  | .cfgPinInt pin enabled compare dv => cfgPinInt s.config s.dirValue (pinOf s.config.geometry pin) enabled compare dv
  | .readIntReg bank => andThen (readIntReg s.config bank) fun r => ret (interruptResponse r)
  | .readInt bank => readInt s.config s.mirrorOn bank
  | .clearInt => clearInt s.config
  | .reset => andThen (resetSeq s.config) fun _ => ret { }
  | .construct addr => construct s.config addr

/-- Every command: its program and conclusion where it may run, NOT_CONSTRUCTED where it may not (R148). -/
theorem exec_eq_program (i : Instr) (s : State) :
    exec i s = .next (if runsUnconstructed i = true ∨ s.constructed = true then conclude (program s i s)
      else s.respond notConstructedResponse) := by
  cases i <;> simp [exec, runsUnconstructed, program, execPinDecode, execPinMode, execSetBit, execMerge16, execRmw,
    execSetDirection, execSetPullUp, execWriteOutput, execReadInput, execReadCurrent, execCfgSysInt, execCfgPinInt,
    execReadIntReg, execReadInt, execClearInt, execReset, execConstruct, runCommand, runConstructed]

/-- A command that may run concludes its program. -/
theorem exec_of_runs (i : Instr) (s : State) (h : runsUnconstructed i = true ∨ s.constructed = true) :
    exec i s = .next (conclude (program s i s)) := by
  rw [exec_eq_program, if_pos h]

@[simp] theorem conclude_value (r : Response) (s : State) : conclude (.value r, s) = s.respond r := rfl

@[simp] theorem conclude_raised (e : Error) (s : State) : conclude (.raised e, s) = s.respond (errorResponse e) := rfl

@[simp] theorem conclude_waiting (s : State) : conclude (.waiting, s) = { s with busy := true } := rfl

/-- Concluding a command touches only `busy` and the responses. -/
theorem conclude_keeps (x : Ended Response × State) :
    (conclude x).trace = x.2.trace ∧ (conclude x).oracle = x.2.oracle ∧ (conclude x).config = x.2.config ∧
    (conclude x).commands = x.2.commands ∧ (conclude x).dir = x.2.dir ∧ (conclude x).mirror = x.2.mirror ∧
    (conclude x).constructed = x.2.constructed ∧ (conclude x).timer = x.2.timer := by
  rcases x with ⟨r | e | _, s⟩ <;> simp

/-- Everything a step can do (R26, R60, R64). -/
theorem step_cases (s : State) :
    ((s.busy = true ∨ s.commands = []) ∧ step s = .next s) ∨
    ∃ w rest, s.busy = false ∧ s.commands = w :: rest ∧
      ((∃ i, decode s.config w = .command i ∧ step s = exec i { s with busy := true, commands := rest }) ∨
       (∃ why, decode s.config w = .illegal why ∧
          step s = .next (State.respond { s with busy := true, commands := rest } illegalResponse))) := by
  rcases s.accept_cases with ⟨h, hn⟩ | ⟨w, rest, hb, hc, h⟩
  · exact .inl ⟨hn, by simp [step, h]⟩
  · refine .inr ⟨w, rest, hb, hc, ?_⟩
    cases hd : decode s.config w with
    | command i => exact .inl ⟨i, rfl, by simp [step, h, hd]⟩
    | illegal why => exact .inr ⟨why, rfl, by simp [step, h, hd]⟩

/-! ### The pieces shared by several commands -/

/-- Reads of the interrupt registers stay in INTF and INTCAP of the bank (R118). -/
theorem traces_readIntReg {P : Event → Prop} (c : Config) (bank : Bank) (hf : ∀ a, P ⟨.read (reg c .intf bank), a⟩)
    (hc : ∀ a, P ⟨.read (reg c .intcap bank), a⟩) : Traces P (readIntReg c bank) := by
  refine traces_andThen (traces_memRead _ hf) fun f => ?_
  split
  · exact traces_ret P _
  · exact traces_andThen (traces_memRead _ hc) fun v => traces_ret P _

theorem traces_pollInt {P : Event → Prop} (c : Config) (hf : ∀ b a, P ⟨.read (reg c .intf b), a⟩) :
    Traces P (pollInt c) :=
  traces_andThen (traces_memRead _ (hf .A)) fun _ => traces_andThen (traces_memRead _ (hf .B)) fun _ => traces_ret P _

theorem traces_clearRetry {P : Event → Prop} (c : Config) (hf : ∀ b a, P ⟨.read (reg c .intf b), a⟩)
    (hg : ∀ b a, P ⟨.read (reg c .gpio b), a⟩) (hp : P (paused c.clearPauseMs))
    (hs : P (pauseSilent c.clearPauseMs)) (n : Nat) : Traces P (clearRetry c n) := by
  induction n with
  | zero =>
    exact traces_andThen (traces_memRead _ (hg .A)) fun _ =>
      traces_andThen (traces_memRead _ (hg .B)) fun _ => traces_raise P _
  | succ n ih =>
    refine traces_andThen (traces_pause _ hp hs) fun _ => traces_andThen (traces_pollInt c hf) fun f => ?_
    split
    · exact traces_ret P _
    · exact ih

theorem traces_writeAll {P : Event → Prop} (ws : List (Byte × Byte))
    (hw : ∀ p ∈ ws, ∀ a, P ⟨.write p.1 p.2, a⟩) : Traces P (writeAll ws) := by
  induction ws with
  | nil => exact traces_ret P ()
  | cons p ws ih =>
    obtain ⟨r, v⟩ := p
    exact traces_andThen (traces_memWrite r v (hw (r, v) (by simp))) fun _ =>
      ih fun q hq => hw q (List.mem_cons_of_mem _ hq)

theorem traces_resetSeq {P : Event → Prop} (c : Config) (hw : ∀ p ∈ resetWrites c, ∀ a, P ⟨.write p.1 p.2, a⟩)
    (hg : ∀ b a, P ⟨.read (reg c .gpio b), a⟩) : Traces P (resetSeq c) :=
  traces_andThen (traces_writeAll _ hw) fun _ => traces_andThen (traces_memRead _ (hg .A)) fun _ =>
    traces_andThen (traces_memRead _ (hg .B)) fun _ => traces_ret P _

theorem keeps_writeAll {γ : Type} {f : State → γ} (hf : ∀ s n evs, f (State.ran s n evs) = f s)
    (ws : List (Byte × Byte)) : Keeps f (writeAll ws) := by
  induction ws with
  | nil => exact keeps_ret f ()
  | cons p ws ih => exact keeps_andThen (keeps_command hf _) fun _ => ih

theorem keeps_resetSeq {γ : Type} {f : State → γ} (hf : ∀ s n evs, f (State.ran s n evs) = f s) (c : Config) :
    Keeps f (resetSeq c) :=
  keeps_andThen (keeps_writeAll hf _) fun _ => keeps_andThen (keeps_memRead hf _) fun _ =>
    keeps_andThen (keeps_memRead hf _) fun _ => keeps_ret f _

/-- The writes of a list, all answered ok. -/
theorem writeAll_ok (ws : List (Byte × Byte)) (s : State) (h : ∀ k, k < ws.length → isOk (s.oracle.peek k) = true) :
    writeAll ws s = (.value (), s.ran ws.length (ws.map fun p => writeOk p.1 p.2)) := by
  induction ws generalizing s with
  | nil => simp [writeAll, State.ran_zero]
  | cons p ws ih =>
    obtain ⟨r, v⟩ := p
    rw [writeAll, andThen_value _ _ _ _ _ (memWrite_ok r v s (h 0 (by simp))), ih]
    · simp [Nat.add_comm]
    · intro k hk
      have := h (1 + k) (by simp; omega)
      simpa using this

end Sys2Proof.Machine
end

