-- ==== Sys2Proof/Laws/PerInstr.lean ====
section
/-! SUPPORT. Per-instruction laws of the syntax: the word a well-formed command is encoded in carries its opcode and has every must-be-zero bit of its row at 0 (30_encoding.md R62, R63). -/

namespace Sys2Proof.Laws.EncodesLegally

/-- The command's word is legal for its row. -/
def Statement (i : Instr) : Prop :=
  ∀ c : Config, wellFormed c i = true →
    opcField (encode i) = opcodeByte (opcodeOf i) ∧ encode i &&& mustBeZero c (opcodeOf i) = 0

/-- A packed word is legal when its opcode is the row's and its fields are zero under the row's mask. -/
theorem legal_of_mask (op : Opcode) (c : Config) (pin pin' : PinIndex) (f0 f1 f2 f3 f0' f1' f2' f3' : Bool)
    (a8 b8 a8' b8' : Byte) (w16 w16' : Word16)
    (hm : mustBeZero c op = packMask 0 pin' f0' f1' f2' f3' a8' b8' w16' 0xFFFF)
    (hp : pin &&& pin' = 0) (h0 : (f0 && f0') = false) (h1 : (f1 && f1') = false) (h2 : (f2 && f2') = false)
    (h3 : (f3 && f3') = false) (ha : a8 &&& a8' = 0) (hb : b8 &&& b8' = 0) (hw : w16 &&& w16' = 0) :
    opcField (packCommand (opcodeByte op) pin f0 f1 f2 f3 a8 b8 w16) = opcodeByte op ∧
      packCommand (opcodeByte op) pin f0 f1 f2 f3 a8 b8 w16 &&& mustBeZero c op = 0 := by
  refine ⟨(fields_packCommand _ _ _ _ _ _ _ _ _).1, ?_⟩
  rw [hm, packCommand_and_packMask, hp, h0, h1, h2, h3, ha, hb, hw]
  have : opcodeByte op &&& 0 = 0 := BitVec.and_zero
  rw [this, packCommand_zero]

theorem pinDecode (index : Byte) : Statement (.pinDecode index) := fun c _ =>
  legal_of_mask .pinDecode c 0 0xF false false false false true true true true index 0 0 0xFF 0 0xFFFF (by rfl)
    (by simp) rfl rfl rfl rfl (by simp) (by simp) (by simp)

theorem pinMode (pin : PinIndex) (word : Word16) : Statement (.pinMode pin word) := fun c _ =>
  legal_of_mask .pinMode c pin 0 false false false false true true true true 0 0 0xFF 0xFF word 0 (by rfl)
    (by simp) rfl rfl rfl rfl (by simp) (by simp) (by simp)

theorem setBit (byte : Byte) (index : BitIndex) (value : Bool) : Statement (.setBit byte index value) := fun c _ =>
  legal_of_mask .setBit c (0#1 ++ index) 8 value false false false false true true true byte 0 0 0xFF 0 0xFFFF (by rfl)
    (by
      have h : ∀ i : BitIndex, (0#1 ++ i : PinIndex) &&& 8 = 0 := by decide
      exact h index) (by simp) rfl rfl rfl (by simp) (by simp) (by simp)

theorem merge16 (pin : PinIndex) (word : Word16) (byte : Byte) : Statement (.merge16 pin word byte) := fun c _ =>
  legal_of_mask .merge16 c pin 0 false false false false true true true true byte 0 0 0xFF word 0 (by rfl)
    (by simp) rfl rfl rfl rfl (by simp) (by simp) (by simp)

theorem rmw (r : Byte) (pin : PinIndex) (value : Bool) (known : Option Byte) :
    Statement (.rmw r pin value known) := by
  intro c _
  cases known with
  | none =>
    exact legal_of_mask .rmw c pin 0 value false false false false true false true r 0 0 0 0 0xFFFF (by rfl)
      (by simp) (by simp) rfl rfl rfl (by simp) (by simp) (by simp)
  | some k =>
    exact legal_of_mask .rmw c pin 0 value false true false false true false true r k 0 0 0 0xFFFF (by rfl)
      (by simp) (by simp) rfl rfl rfl (by simp) (by simp) (by simp)

theorem setDirection (pin : PinIndex) (mode : Mode) : Statement (.setDirection pin mode) := fun c _ =>
  legal_of_mask .setDirection c pin 0 (modeBit mode) false false false false true true true 0 0 0xFF 0xFF 0 0xFFFF (by rfl)
    (by simp) (by simp) rfl rfl rfl (by simp) (by simp) (by simp)

theorem setPullUp (pin : PinIndex) (level : Level) : Statement (.setPullUp pin level) := fun c _ =>
  legal_of_mask .setPullUp c pin 0 (levelBit level) false false false false true true true 0 0 0xFF 0xFF 0 0xFFFF (by rfl)
    (by simp) (by simp) rfl rfl rfl (by simp) (by simp) (by simp)

theorem writeOutput (pin : PinIndex) (level : Level) : Statement (.writeOutput pin level) := fun c _ =>
  legal_of_mask .writeOutput c pin 0 (levelBit level) false false false false true true true 0 0 0xFF 0xFF 0 0xFFFF
    (by rfl) (by simp) (by simp) rfl rfl rfl (by simp) (by simp) (by simp)

theorem readInput (pin : PinIndex) : Statement (.readInput pin) := fun c _ =>
  legal_of_mask .readInput c pin 0 false false false false true true true true 0 0 0xFF 0xFF 0 0xFFFF (by rfl)
    (by simp) rfl rfl rfl rfl (by simp) (by simp) (by simp)

theorem readCurrent (pin : PinIndex) : Statement (.readCurrent pin) := fun c _ =>
  legal_of_mask .readCurrent c pin 0 false false false false true true true true 0 0 0xFF 0xFF 0 0xFFFF (by rfl)
    (by simp) rfl rfl rfl rfl (by simp) (by simp) (by simp)

theorem cfgSysInt (mirror : Feature) (polarity : Level) : Statement (.cfgSysInt mirror polarity) := fun c _ =>
  legal_of_mask .cfgSysInt c 0 0xF (featureBit mirror) (levelBit polarity) false false false false true true 0 0 0xFF 0xFF
    0 0xFFFF (by rfl) (by simp) (by simp) (by simp) rfl rfl (by simp) (by simp) (by simp)

theorem cfgPinInt (pin : PinIndex) (enabled : Feature) (compare : Compare) (defaultValue : Option Level) :
    Statement (.cfgPinInt pin enabled compare defaultValue) := by
  intro c _
  cases defaultValue with
  | none =>
    exact legal_of_mask .cfgPinInt c pin 0 (featureBit enabled) (compareBit compare) false false false false false false
      0 0 0xFF 0xFF 0 0xFFFF (by rfl) (by simp) (by simp) (by simp) rfl rfl (by simp) (by simp) (by simp)
  | some v =>
    exact legal_of_mask .cfgPinInt c pin 0 (featureBit enabled) (compareBit compare) true (levelBit v) false false false
      false 0 0 0xFF 0xFF 0 0xFFFF (by rfl) (by simp) (by simp) (by simp) rfl (by simp) (by simp) (by simp) (by simp)

theorem readIntReg (bank : Bank) : Statement (.readIntReg bank) := fun c _ =>
  legal_of_mask .readIntReg c 0 0xF (bankBit bank) false false false false true true true 0 0 0xFF 0xFF 0 0xFFFF (by rfl)
    (by simp) (by simp) rfl rfl rfl (by simp) (by simp) (by simp)

theorem readInt (bank : Bank) : Statement (.readInt bank) := fun c _ =>
  legal_of_mask .readInt c 0 0xF (bankBit bank) false false false false true true true 0 0 0xFF 0xFF 0 0xFFFF (by rfl)
    (by simp) (by simp) rfl rfl rfl (by simp) (by simp) (by simp)

theorem clearInt : Statement .clearInt := fun c _ =>
  legal_of_mask .clearInt c 0 0xF false false false false true true true true 0 0 0xFF 0xFF 0 0xFFFF (by rfl)
    (by simp) rfl rfl rfl rfl (by simp) (by simp) (by simp)

theorem reset : Statement .reset := fun c _ =>
  legal_of_mask .reset c 0 0xF false false false false true true true true 0 0 0xFF 0xFF 0 0xFFFF (by rfl)
    (by simp) rfl rfl rfl rfl (by simp) (by simp) (by simp)

/-- The mask of CONSTRUCT, field by field (R63, R136). -/
theorem mustBeZero_construct (c : Config) :
    mustBeZero c .construct = packMask 0 0xF true true true true (addrZeroBits c) 0xFF 0xFFFF 0xFFFF := by
  unfold mustBeZero
  generalize addrZeroBits c = x
  revert x
  decide

theorem construct (addr : Byte) : Statement (.construct addr) := by
  intro c hw
  have ha : addr &&& addrZeroBits c = 0 := (addr_fits_iff c addr).1 (by simpa [wellFormed] using hw)
  exact legal_of_mask .construct c 0 0xF false false false false true true true true addr 0 (addrZeroBits c) 0xFF 0 0xFFFF
    (mustBeZero_construct c) (by simp) rfl rfl rfl rfl ha (by simp) (by simp)

end Sys2Proof.Laws.EncodesLegally
end

