-- ==== Sys2Proof/Tests/Slice0.lean ====
section
/-! SUPPORT. The model's own tests.  Words, traces and responses come from the test vectors of 95_test_vectors.md and from the encodings of 30_encoding.md; the witnesses show a state and operands that meet the hypotheses of each obligation. -/

namespace Sys2Proof.Tests

open Sys2Proof Sys2Proof.Machine

/-- A constructed block at the default parameters, with the answers the bus gives next and a timer that answers the next three
PAUSEs. -/
def block (dir : Word16) (mirror : Feature) (answers : List BusAnswer) : State :=
  { State.reset with
    constructed := true, dir := some dir, mirror := some mirror, oracle := { script := answers, drawn := 0 },
    timer := { script := [true, true, true], drawn := 0 } }

/-- The same block with a timer that answers the next PAUSEs as given. -/
def timed (s : State) (answered : List Bool) : State := { s with timer := { script := answered, drawn := 0 } }

/-- A block not yet constructed. -/
def fresh (answers : List BusAnswer) : State :=
  { State.reset with oracle := { script := answers, drawn := 0 } }

/-- One step with a word presented, looked at through a function of the next state. -/
def after {α : Type} (f : State → α) (s : State) (w : CommandWord) : Option α :=
  match step (s.present w) with
  | .next t => some (f t)
  | .fault _ => none
  | .refused _ => none

/-- The responses and the trace of one step. -/
def seen (s : State) (w : CommandWord) : Option (List ResponseWord × List Event) :=
  after (fun t => (t.responses, t.trace)) s w

/-- The block's registers after one step. -/
def registers (s : State) (w : CommandWord) : Option (Bool × Bool × Option Word16 × Option Feature) :=
  after (fun t => (t.constructed, t.busy, t.dir, t.mirror)) s w

/-! ### WellFormed -/

theorem test_wellFormed_address : wellFormed defaultConfig (.construct 0x7F) = true := by decide
theorem test_illFormed_address : wellFormed defaultConfig (.construct 0x80) = false := by decide
theorem test_wellFormed_wide_address :
    wellFormed { defaultConfig with addrBits := 8 } (.construct 0x80) = true ∧
    decode { defaultConfig with addrBits := 8 } 0x0000000000800031 = .command (.construct 0x80) := by decide

/-! ### Decoding: one word per mnemonic, from R62 and R63 -/

theorem test_decode_pinDecode : decode defaultConfig 0x0000000000FF0001 = .command (.pinDecode 0xFF) := by decide
theorem test_decode_pinMode : decode defaultConfig 0x0000FFF700000302 = .command (.pinMode 3 0xFFF7) := by decide
theorem test_decode_setBit : decode defaultConfig 0x0000000000A51103 = .command (.setBit 0xA5 1 true) := by decide
theorem test_decode_merge16 : decode defaultConfig 0x0000123400AB0804 = .command (.merge16 8 0x1234 0xAB) := by decide
theorem test_decode_rmw : decode defaultConfig 0x0000000001145F05 = .command (.rmw 0x14 15 true (some 0x01)) := by decide
theorem test_decode_rmw_absent : decode defaultConfig 0x0000000055121105 = .command (.rmw 0x12 1 true none) := by decide
theorem test_decode_setDirection : decode defaultConfig 0x0000000000001F10 = .command (.setDirection 15 .input) := by decide
theorem test_decode_setPullUp : decode defaultConfig 0x0000000000000C11 = .command (.setPullUp 12 .low) := by decide
theorem test_decode_writeOutput : decode defaultConfig 0x0000000000001912 = .command (.writeOutput 9 .high) := by decide
theorem test_decode_readInput : decode defaultConfig 0x0000000000000C13 = .command (.readInput 12) := by decide
theorem test_decode_readCurrent : decode defaultConfig 0x0000000000000314 = .command (.readCurrent 3) := by decide
theorem test_decode_cfgSysInt : decode defaultConfig 0x0000000000001020 = .command (.cfgSysInt .on .low) := by decide
theorem test_decode_cfgPinInt :
    decode defaultConfig 0x000000000000C021 = .command (.cfgPinInt 0 .off .previous (some .high)) := by decide
theorem test_decode_cfgPinInt_absent :
    decode defaultConfig 0x000000000000B921 = .command (.cfgPinInt 9 .on .default none) := by decide
theorem test_decode_readIntReg : decode defaultConfig 0x0000000000001022 = .command (.readIntReg .B) := by decide
theorem test_decode_readInt : decode defaultConfig 0x0000000000000023 = .command (.readInt .A) := by decide
theorem test_decode_clearInt : decode defaultConfig 0x0000000000000024 = .command .clearInt := by decide
theorem test_decode_reset : decode defaultConfig 0x0000000000000030 = .command .reset := by decide
theorem test_decode_construct : decode defaultConfig 0x0000000000270031 = .command (.construct 0x27) := by decide

/-- V20 to V27: an unassigned opcode, each kind of must-be-zero bit. -/
theorem test_decode_illegal :
    decode defaultConfig 0x0000000000000000 = .illegal .unassignedOpcode ∧
    decode defaultConfig 0x0001000000000024 = .illegal .mustBeZeroBitSet ∧
    decode defaultConfig 0x0000000000030101 = .illegal .mustBeZeroBitSet ∧
    decode defaultConfig 0x0000000000001803 = .illegal .mustBeZeroBitSet ∧
    decode defaultConfig 0x0000000000800031 = .illegal .mustBeZeroBitSet ∧
    decode defaultConfig 0x8000000000000024 = .illegal .mustBeZeroBitSet := by decide

theorem test_decodeTableWord : decodeTableWord 64 0x1022 = some (.readIntReg .B) ∧ decodeTableWord 64 0x06 = none := by decide

/-! ### The command port -/

/-- V25, V27: ILLEGAL comes before NOT_CONSTRUCTED; V26: NOT_CONSTRUCTED. -/
theorem test_answers_before_construction :
    seen (fresh []) 0x8000000000000024 = some ([0x00000004], []) ∧
    seen (fresh []) 0x0000000000000314 = some ([0x00000005], []) := by decide

/-- A bus that never answers: no response, `busy` stays 1 (R173). -/
theorem test_silent_bus :
    seen (block 0xFFFF .off [.silent]) 0x0000000000000314 = some ([], [⟨.read 0x12, .unanswered⟩]) ∧
    registers (block 0xFFFF .off [.silent]) 0x0000000000000314 = some (true, true, some 0xFFFF, some .off) := by decide

/-- The first PAUSE of CLEAR_INT answered and the second not: no response, `busy` stays 1 (R173, I5). -/
theorem test_silent_pause :
    seen (timed (block 0xFFFF .off [.ok 1, .ok 1, .ok 1, .ok 1]) [true, false]) 0x0000000000000024 =
      some ([], [⟨.read 0x0E, .value 1⟩, ⟨.read 0x0F, .value 1⟩, ⟨.pause 500, .done⟩, ⟨.read 0x0E, .value 1⟩,
        ⟨.read 0x0F, .value 1⟩, ⟨.pause 500, .unanswered⟩]) ∧
    after State.busy (timed (block 0xFFFF .off [.ok 1, .ok 1, .ok 1, .ok 1]) [true, false]) 0x0000000000000024 =
      some true := by decide

/-- NPINS and RESET_WRITES are arguments (R6): fewer pins, and fewer writes before the two GPIO reads. -/
theorem test_geometry_is_an_argument :
    seen { fresh [] with config := { defaultConfig with geometry := { defaultGeometry with npins := 12 } } }
      0x00000000000C0001 = some ([0x00000000], []) ∧
    after (fun t => t.trace.length)
      { block 0 .off (List.replicate 16 (.ok 0)) with
        config := { defaultConfig with geometry := { defaultGeometry with resetWrites := 13 } } } 0x0000000000000030 =
      some 15 := by decide

/-- The first step after reset runs the row's word. -/
theorem test_first_step_after_reset :
    (match step (State.reset.withFetchWord 64 0x000B0001) with
      | .next t => t.responses
      | .fault _ => []
      | .refused _ => []) = [0x001B0B10] := by decide

/-! ### The codec -/

/-- V3, V6. -/
theorem test_pinDecode :
    seen (fresh []) 0x0000000000080001 = some ([0x00180810], []) ∧
    seen (fresh []) 0x0000000000100001 = some ([0x00000000], []) := by decide

/-- V8, V10. -/
theorem test_pinMode :
    seen (fresh []) 0x0000FFF700000302 = some ([0x00000300], []) ∧
    seen (fresh []) 0x0000800000000F02 = some ([0x00001F00], []) := by decide

/-- V12, V13. -/
theorem test_setBit :
    seen (fresh []) 0x0000000000A51103 = some ([0x00A70000], []) ∧
    seen (fresh []) 0x0000000000FF0703 = some ([0x007F0000], []) := by decide

/-- V16, V17. -/
theorem test_merge16 :
    seen (fresh []) 0x0000123400AB0804 = some ([0xAB340000], []) ∧
    seen (fresh []) 0x0000123400AB0304 = some ([0x12AB0000], []) := by decide

/-! ### The mutator -/

/-- V30, V32. -/
theorem test_rmw :
    seen (block 0xFFFF .off [.ok 0]) 0x0000000001145F05 = some ([0x00810000], [⟨.write 0x14 0x81, .ok⟩]) ∧
    seen (block 0xFFFF .off [.ok 0x07, .ok 0]) 0x0000000000121805 =
      some ([0x00070000], [⟨.read 0x12, .value 0x07⟩, ⟨.write 0x12 0x07, .ok⟩]) := by decide

/-- V34: the write failing. -/
theorem test_rmw_write_fails :
    seen (block 0xFFFF .off [.ok 0x00, .fail]) 0x0000000000121105 =
      some ([0x00000001], [⟨.read 0x12, .value 0x00⟩, ⟨.write 0x12 0x02, .fail⟩]) := by decide

/-- V35, V37. -/
theorem test_setDirection :
    seen (block 0xFFFF .off [.ok 0xFF, .ok 0]) 0x0000000000000310 =
      some ([0xFFF70000], [⟨.read 0x00, .value 0xFF⟩, ⟨.write 0x00 0xF7, .ok⟩]) ∧
    after State.dir (block 0xFFFF .off [.ok 0xFF, .ok 0]) 0x0000000000000310 = some (some 0xFFF7) ∧
    after State.dir (block 0xFFFF .off [.ok 0xFF, .fail]) 0x0000000000000310 = some (some 0xFFFF) := by decide

/-- V38: with DIR_USE_CACHE no read is made. -/
theorem test_setDirection_cached :
    seen { block 0xFFF7 .off [.ok 0] with config := { defaultConfig with dirUseCache := true } } 0x0000000000000410 =
      some ([0xFFE70000], [⟨.write 0x00 0xE7, .ok⟩]) := by decide

/-- V39, V40. -/
theorem test_setPullUp :
    seen (block 0xFFFF .off [.ok 0x00, .ok 0]) 0x0000000000001C11 =
      some ([0x10000000], [⟨.read 0x0D, .value 0x00⟩, ⟨.write 0x0D 0x10, .ok⟩]) ∧
    seen (block 0xFFFF .off [.ok 0x00, .ok 0]) 0x0000000000001211 =
      some ([0x00040000], [⟨.read 0x0C, .value 0x00⟩, ⟨.write 0x0C 0x04, .ok⟩]) := by decide

/-- V42, V43. -/
theorem test_writeOutput :
    seen (block 0xFFF7 .off [.ok 0x00, .ok 0]) 0x0000000000001412 =
      some ([0x00100000], [⟨.read 0x14, .value 0x00⟩, ⟨.write 0x12 0x10, .ok⟩]) ∧
    seen (block 0xFFF7 .off []) 0x0000000000001312 = some ([0x00000302], []) := by decide

/-- V45: a failed OLAT read is tolerated. -/
theorem test_writeOutput_latch_fails :
    seen (block 0xFFFF .off [.fail, .ok 0xF0, .ok 0]) 0x0000000000001912 =
      some ([0x00F20000], [⟨.read 0x15, .fail⟩, ⟨.read 0x13, .value 0xF0⟩, ⟨.write 0x13 0xF2, .ok⟩]) := by decide

/-- V48, V49. -/
theorem test_readInput :
    seen (block 0xFFFF .off [.ok 0x10]) 0x0000000000000C13 = some ([0x00001C00], [⟨.read 0x13, .value 0x10⟩]) ∧
    seen (block 0xEFFF .off []) 0x0000000000000C13 = some ([0x00000C02], []) := by decide

/-- V51, V52. -/
theorem test_readCurrent :
    seen (block 0x0000 .off [.ok 0x08]) 0x0000000000000314 = some ([0x00001300], [⟨.read 0x12, .value 0x08⟩]) ∧
    seen (block 0xFFFF .off [.ok 0xEF]) 0x0000000000000C14 = some ([0x00000C00], [⟨.read 0x13, .value 0xEF⟩]) := by decide

/-! ### Interrupts -/

/-- V56, V57. -/
theorem test_cfgSysInt :
    seen (block 0xFFFF .on [.ok 0xFF, .ok 0]) 0x0000000000000020 =
      some ([0x00000000], [⟨.read 0x0A, .value 0xFF⟩, ⟨.write 0x0A 0xBD, .ok⟩]) ∧
    after State.mirror (block 0xFFFF .on [.ok 0xFF, .ok 0]) 0x0000000000000020 = some (some .off) ∧
    after State.mirror (block 0xFFFF .off [.ok 0x00, .fail]) 0x0000000000001020 = some (some .off) := by decide

/-- V59a. -/
theorem test_cfgPinInt :
    seen (block 0xFFFE .off [.ok 0xFF, .ok 0, .ok 0xFF, .ok 0, .ok 0x00, .ok 0]) 0x000000000000C021 =
      some ([0x00000000], [⟨.read 0x04, .value 0xFF⟩, ⟨.write 0x04 0xFE, .ok⟩, ⟨.read 0x08, .value 0xFF⟩,
        ⟨.write 0x08 0xFE, .ok⟩, ⟨.read 0x06, .value 0x00⟩, ⟨.write 0x06 0x01, .ok⟩]) := by decide

/-- V59, V59b. -/
theorem test_cfgPinInt_stops :
    seen (block 0xFFFF .off []) 0x0000000000003921 = some ([0x00000902], []) ∧
    seen (block 0xFDFF .off [.ok 0x00, .ok 0, .ok 0x00, .fail]) 0x0000000000003921 =
      some ([0x00000001], [⟨.read 0x05, .value 0x00⟩, ⟨.write 0x05 0x02, .ok⟩, ⟨.read 0x09, .value 0x00⟩,
        ⟨.write 0x09 0x02, .fail⟩]) := by decide

/-- V62, V64. -/
theorem test_readIntReg :
    seen (block 0xFFFF .off [.ok 0x05, .ok 0x01]) 0x0000000000000022 =
      some ([0x00000210], [⟨.read 0x0E, .value 0x05⟩, ⟨.read 0x10, .value 0x01⟩]) ∧
    seen (block 0xFFFF .off [.ok 0x01, .ok 0x00]) 0x0000000000001022 =
      some ([0x00000810], [⟨.read 0x0F, .value 0x01⟩, ⟨.read 0x11, .value 0x00⟩]) := by decide

/-- V67, V71: mirror On ignores the requested bank, mirror Off follows it. -/
theorem test_readInt :
    seen (block 0xFFFF .on [.ok 0x01, .ok 0x00]) 0x0000000000001023 =
      some ([0x00000010], [⟨.read 0x0E, .value 0x01⟩, ⟨.read 0x10, .value 0x00⟩]) ∧
    seen (block 0xFFFF .off [.ok 0x40, .ok 0x40]) 0x0000000000001023 =
      some ([0x00001E10], [⟨.read 0x0F, .value 0x40⟩, ⟨.read 0x11, .value 0x40⟩]) := by decide

/-- V69, V70: a bank-B failure is swallowed, a bank-A failure is not. -/
theorem test_readInt_failures :
    seen (block 0xFFFF .on [.ok 0x00, .ok 0x02, .fail]) 0x0000000000000023 =
      some ([0x00000000], [⟨.read 0x0E, .value 0x00⟩, ⟨.read 0x0F, .value 0x02⟩, ⟨.read 0x11, .fail⟩]) ∧
    seen (block 0xFFFF .on [.fail]) 0x0000000000001023 = some ([0x00000001], [⟨.read 0x0E, .fail⟩]) := by decide

/-- V75: the first poll needs both banks at zero, a retry either. -/
theorem test_clearInt :
    seen (block 0xFFFF .off [.ok 0x00, .ok 0x02, .ok 0x00, .ok 0x02]) 0x0000000000000024 =
      some ([0x00000000], [⟨.read 0x0E, .value 0x00⟩, ⟨.read 0x0F, .value 0x02⟩, ⟨.pause 500, .done⟩,
        ⟨.read 0x0E, .value 0x00⟩, ⟨.read 0x0F, .value 0x02⟩]) := by decide

/-- V78: one retry, then the forced clear. -/
theorem test_clearInt_forced :
    seen { block 0xFFFF .off [.ok 1, .ok 1, .ok 1, .ok 1, .ok 0, .ok 0] with
        config := { defaultConfig with clearRetries := 1 } } 0x0000000000000024 =
      some ([0x00000003], [⟨.read 0x0E, .value 1⟩, ⟨.read 0x0F, .value 1⟩, ⟨.pause 500, .done⟩, ⟨.read 0x0E, .value 1⟩,
        ⟨.read 0x0F, .value 1⟩, ⟨.read 0x12, .value 0⟩, ⟨.read 0x13, .value 0⟩]) := by decide

/-! ### The device commands -/

/-- V87: sixteen events, `dir` and `mirror` keep their values. -/
theorem test_reset :
    registers (block 0xFFF7 .on (List.replicate 16 (.ok 0x00))) 0x0000000000000030 =
      some (true, false, some 0xFFF7, some .on) ∧
    after (fun t => (t.responses, t.trace.length)) (block 0xFFF7 .on (List.replicate 16 (.ok 0x00))) 0x0000000000000030 =
      some ([0x00000000], 16) := by decide

/-- V86: the fifth write failing. -/
theorem test_reset_fifth_write_fails :
    seen (block 0xFFFF .off [.ok 0, .ok 0, .ok 0, .ok 0, .fail]) 0x0000000000000030 =
      some ([0x00000001], [⟨.write 0x00 0xFF, .ok⟩, ⟨.write 0x01 0xFF, .ok⟩, ⟨.write 0x12 0x00, .ok⟩,
        ⟨.write 0x13 0x00, .ok⟩, ⟨.write 0x0C 0x00, .fail⟩]) := by decide

/-- V91: `dir` comes from the reads before the reset sequence. -/
theorem test_construct :
    registers (fresh ([.ok 0, .ok 0xF7, .ok 0x00] ++ List.replicate 16 (.ok 0x00))) 0x0000000000270031 =
      some (true, false, some 0x00F7, some .off) := by decide

/-- V92: a failed construction of a constructed block leaves it unconstructed. -/
theorem test_construct_fails :
    after (fun t => (t.responses, t.constructed)) (block 0x1234 .off [.ok 0, .ok 0xFF, .ok 0xFF, .fail]) 0x0000000000200031 =
      some ([0x00000001], false) := by decide

/-! ### Assembler syntax (lines and words of 95_test_vectors.md) -/

theorem test_assemble :
    assembleText "pin_decode 0x0b" = some 0x00000000000B0001 ∧ assembleText "set_bit 0xa5, 1, 1" = some 0x0000000000A51103 ∧
    assembleText "cfg_sys_int on, high" = some 0x0000000000003020 ∧ assembleText "clear_int" = some 0x0000000000000024 := by
  decide

theorem test_assemble_refuses :
    assembleText "set_bit 0xa5, 8, 1" = none ∧ assembleText "read_current p16" = none ∧ assembleText "nop" = none := by decide

/-! ### Witnesses: the hypotheses of each obligation, met together -/

theorem witness_DecodeOfEncodeIsIdentity : wellFormed defaultConfig (.construct 0x7F) = true := by decide

theorem witness_EncodeOfDecodeClearsIgnoredBits :
    decode defaultConfig 0x00000000FF121105 = .command (.rmw 0x12 1 true none) ∧
    decode defaultConfig 0x000000000000B921 = .command (.cfgPinInt 9 .on .default none) ∧
    decode defaultConfig 0x0000000001145F05 = .command (.rmw 0x14 15 true (some 0x01)) := by decide

theorem witness_StepRunsDecodedCommand :
    ((fresh []).present 0x24).busy = false ∧ ((fresh []).present 0x24).commands = [0x24] ∧
    decode ((fresh []).present 0x24).config 0x24 = .command .clearInt := by decide

/-- Both clauses: an unassigned opcode, and CONSTRUCT with A8[7] = 1. -/
theorem witness_IllegalWordAnsweredIllegal :
    ((fresh []).present 0x06).busy = false ∧ ((fresh []).present 0x06).commands = [0x06] ∧
    (∀ op, opcodeByte op ≠ opcField 0x06) ∧ ((fresh []).present 0x800031).busy = false ∧
    ((fresh []).present 0x800031).commands = [0x800031] ∧ opcodeByte .construct = opcField 0x800031 ∧
    (0x800031 : CommandWord) &&& mustBeZero (fresh []).config .construct ≠ 0 := by
  refine ⟨rfl, rfl, fun op => ?_, rfl, rfl, by decide, by decide⟩
  cases op <;> decide

theorem witness_UnconstructedBusCommandAnswered :
    ((fresh []).present 0x24).busy = false ∧ ((fresh []).present 0x24).commands = [0x24] ∧
    decode ((fresh []).present 0x24).config 0x24 = .command .clearInt ∧ runsUnconstructed .clearInt = false ∧
    ((fresh []).present 0x24).constructed = false := by decide

theorem witness_BusyOrIdlePortChangesNothing :
    ({ fresh [] with busy := true, commands := [0x24] } : State).busy = true ∧ (fresh []).commands = [] := by decide

theorem witness_BlockResetEffect : (block 0xFFFF .on []).commands = [] := by decide

/-- The out-of-range clause at 16, both banks at their ends. -/
theorem witness_CodecLaws :
    (fresh []).config.geometry = defaultGeometry ∧ 16 ≤ (16#8).toNat ∧ (pinOf defaultGeometry 0).bank = .A ∧
    (pinOf defaultGeometry 7).bank = .A ∧ (pinOf defaultGeometry 8).bank = .B ∧ (pinOf defaultGeometry 15).bank = .B ∧
    (0 : Nat) ≠ (7#3).toNat := by decide

/-- The premise on the counts of R6, which both helpers' states and State.reset meet. -/
theorem witness_geometry :
    State.reset.config.geometry = defaultGeometry ∧ (block 0 .off []).config.geometry = defaultGeometry ∧
    (fresh []).config.geometry = defaultGeometry := by decide

theorem witness_Mutator :
    isOk ((fresh [.ok 0]).oracle.peek 0) = true ∧ (fresh [.fail]).oracle.peek 0 = .fail ∧
    (fresh [.ok 0xFF, .ok 0]).oracle.peek 0 = .ok 0xFF ∧ isOk ((fresh [.ok 0xFF, .ok 0]).oracle.peek 1) = true ∧
    (fresh [.ok 0xFF, .fail]).oracle.peek 0 = .ok 0xFF ∧ (fresh [.ok 0xFF, .fail]).oracle.peek 1 = .fail := by decide

/-- One constructed state meets the hypotheses of both clauses of RMW, of SET_PULL_UP and of READ_CURRENT. -/
theorem witness_RmwCompletes :
    (block 0 .off [.ok 0x07, .ok 0]).constructed = true ∧ (block 0 .off [.ok 0x07, .ok 0]).oracle.peek 0 = .ok 0x07 ∧
    isOk ((block 0 .off [.ok 0x07, .ok 0]).oracle.peek 0) = true ∧
    isOk ((block 0 .off [.ok 0x07, .ok 0]).oracle.peek 1) = true := by decide

theorem witness_AbsentOptionValueIgnored :
    f2Field 0x0000000055121105 = false ∧ opcField 0x0000000055121105 = 0x05 ∧
    f2Field 0x000000000000B921 = false ∧ opcField 0x000000000000B921 = 0x21 := by decide

theorem witness_SetDirectionCompletes :
    (block 0xFFFF .off [.ok 0xFF, .ok 0]).constructed = true ∧
    (block 0xFFFF .off [.ok 0xFF, .ok 0]).config.dirUseCache = false ∧
    (block 0xFFFF .off [.ok 0xFF, .ok 0]).oracle.peek 0 = .ok 0xFF ∧
    isOk ((block 0xFFFF .off [.ok 0xFF, .ok 0]).oracle.peek 1) = true := by decide

/-- The cached clause at both ends of the banks: pin 7 and pin 8. -/
theorem witness_SetDirectionCompletes_cached :
    ({ block 0xFFF7 .off [.ok 0] with config := { defaultConfig with dirUseCache := true } } : State).config.dirUseCache =
      true ∧
    ({ block 0xFFF7 .off [.ok 0] with config := { defaultConfig with dirUseCache := true } } : State).config.geometry =
      defaultGeometry ∧
    0xF7 = (if (7#4).toNat < 8 then (block 0xFFF7 .off [.ok 0]).dirValue.extractLsb' 0 8
      else (block 0xFFF7 .off [.ok 0]).dirValue.extractLsb' 8 8) ∧
    0xFF = (if (8#4).toNat < 8 then (block 0xFFF7 .off [.ok 0]).dirValue.extractLsb' 0 8
      else (block 0xFFF7 .off [.ok 0]).dirValue.extractLsb' 8 8) ∧
    isOk ((block 0xFFF7 .off [.ok 0]).oracle.peek 0) = true := by decide

theorem witness_SetDirectionFailureKeepsDir :
    (block 0 .off [.fail]).constructed = true ∧ (block 0 .off [.fail]).config.dirUseCache = false ∧
    (block 0 .off [.fail]).config.geometry = defaultGeometry ∧
    (block 0 .off [.fail]).oracle.peek 0 = .fail ∧ (block 0 .off [.ok 1, .fail]).constructed = true ∧
    (block 0 .off [.ok 1, .fail]).config.dirUseCache = false ∧ (block 0 .off [.ok 1, .fail]).oracle.peek 0 = .ok 1 ∧
    (block 0 .off [.ok 1, .fail]).oracle.peek 1 = .fail := by decide

theorem witness_SetDirectionFailureKeepsDir_cached :
    ({ block 0xFFF7 .off [.fail] with config := { defaultConfig with dirUseCache := true } } : State).config.dirUseCache =
      true ∧
    0xFF = (if (8#4).toNat < 8 then (block 0xFFF7 .off [.fail]).dirValue.extractLsb' 0 8
      else (block 0xFFF7 .off [.fail]).dirValue.extractLsb' 8 8) ∧
    (block 0xFFF7 .off [.fail]).oracle.peek 0 = .fail := by decide

theorem witness_SetPullUpCompletes :
    (block 0 .off [.ok 0, .ok 0]).constructed = true ∧ (block 0 .off [.ok 0, .ok 0]).oracle.peek 0 = .ok 0 ∧
    isOk ((block 0 .off [.ok 0, .ok 0]).oracle.peek 1) = true := by decide

theorem witness_WriteOutputCompletes :
    (block 0x8000 .off [.ok 5, .ok 0]).constructed = true ∧
    (block 0x8000 .off [.ok 5, .ok 0]).dirValue.getLsbD (15#4).toNat = true ∧
    (block 0x8000 .off [.ok 5, .ok 0]).oracle.peek 0 = .ok 5 ∧
    isOk ((block 0x8000 .off [.ok 5, .ok 0]).oracle.peek 1) = true := by decide

theorem witness_WriteOutputCompletes_latchFails :
    (block 0x0001 .off [.fail, .ok 5, .ok 0]).constructed = true ∧
    (block 0x0001 .off [.fail, .ok 5, .ok 0]).dirValue.getLsbD (0#4).toNat = true ∧
    (block 0x0001 .off [.fail, .ok 5, .ok 0]).oracle.peek 0 = .fail ∧
    (block 0x0001 .off [.fail, .ok 5, .ok 0]).oracle.peek 1 = .ok 5 ∧
    isOk ((block 0x0001 .off [.fail, .ok 5, .ok 0]).oracle.peek 2) = true := by decide

theorem witness_WriteOutputTransport :
    (block 0xFFFF .off [.fail, .fail]).constructed = true ∧
    (block 0xFFFF .off [.fail, .fail]).dirValue.getLsbD (9#4).toNat = true ∧
    (block 0xFFFF .off [.fail, .fail]).oracle.peek 0 = .fail ∧ (block 0xFFFF .off [.fail, .fail]).oracle.peek 1 = .fail ∧
    (block 0xFFFF .off [.ok 7, .fail]).constructed = true ∧
    (block 0xFFFF .off [.ok 7, .fail]).dirValue.getLsbD (9#4).toNat = true ∧
    (block 0xFFFF .off [.ok 7, .fail]).oracle.peek 0 = .ok 7 ∧ (block 0xFFFF .off [.ok 7, .fail]).oracle.peek 1 = .fail := by
  decide

/-- The third clause: the OLAT read fails, the GPIO read answers, the GPIO write fails. -/
theorem witness_WriteOutputTransport_write :
    (block 0xFFFF .off [.fail, .ok 7, .fail]).constructed = true ∧
    (block 0xFFFF .off [.fail, .ok 7, .fail]).dirValue.getLsbD (9#4).toNat = true ∧
    (block 0xFFFF .off [.fail, .ok 7, .fail]).oracle.peek 0 = .fail ∧
    (block 0xFFFF .off [.fail, .ok 7, .fail]).oracle.peek 1 = .ok 7 ∧
    (block 0xFFFF .off [.fail, .ok 7, .fail]).oracle.peek 2 = .fail := by decide

theorem witness_ReadInputCompletes :
    (block 0x8000 .off [.ok 0x80]).constructed = true ∧ (block 0x8000 .off [.ok 0x80]).dirValue.getLsbD (15#4).toNat = true ∧
    (block 0x8000 .off [.ok 0x80]).oracle.peek 0 = .ok 0x80 := by decide

theorem witness_ReadCurrentCompletes :
    (block 0 .off [.ok 0x80]).constructed = true ∧ (block 0 .off [.ok 0x80]).oracle.peek 0 = .ok 0x80 := by decide

theorem witness_ModeGuardTruthTable :
    (block 0x7FFF .off []).constructed = true ∧ (block 0x7FFF .off []).dirValue.getLsbD (15#4).toNat = false ∧
    (block 0x8000 .off []).constructed = true ∧ (block 0x8000 .off []).dirValue.getLsbD (15#4).toNat = true := by decide

theorem witness_CfgSysIntCompletes :
    (block 0 .off [.ok 0xFF, .ok 0]).constructed = true ∧ (block 0 .off [.ok 0xFF, .ok 0]).oracle.peek 0 = .ok 0xFF ∧
    isOk ((block 0 .off [.ok 0xFF, .ok 0]).oracle.peek 1) = true := by decide

theorem witness_CfgSysIntFailureKeepsMirror :
    (block 0 .on [.fail]).constructed = true ∧ (block 0 .on [.fail]).oracle.peek 0 = .fail ∧
    (block 0 .on [.ok 0, .fail]).constructed = true ∧ (block 0 .on [.ok 0, .fail]).oracle.peek 0 = .ok 0 ∧
    (block 0 .on [.ok 0, .fail]).oracle.peek 1 = .fail := by decide

theorem witness_IoconKeepsOtherSixBits :
    (block 0 .off [.ok 0xFF, .ok 0]).constructed = true ∧ (block 0 .off [.ok 0xFF, .ok 0]).config.ioconMirrorBit = 6 ∧
    (block 0 .off [.ok 0xFF, .ok 0]).config.ioconIntpolBit = 1 ∧
    (block 0 .off [.ok 0xFF, .ok 0]).oracle.peek 0 = .ok 0xFF ∧
    isOk ((block 0 .off [.ok 0xFF, .ok 0]).oracle.peek 1) = true := by decide

theorem witness_CfgPinIntCompletes :
    (block 0x7FFF .off (List.replicate 6 (.ok 0x80))).constructed = true ∧
    (block 0x7FFF .off (List.replicate 6 (.ok 0x80))).dirValue.getLsbD (15#4).toNat = false ∧
    ∀ k < 6, (block 0x7FFF .off (List.replicate 6 (.ok 0x80))).oracle.peek k = .ok 0x80 := by decide

theorem witness_HighestSetBit : (0x01 : Byte) ≠ 0 ∧ (0xFF : Byte) ≠ 0 ∧ (hsb 0x01).toNat < 1 := by decide

/-- Both clauses: no interrupt, and the lowest and highest flag. -/
theorem witness_ReadIntRegCompletes :
    (block 0 .off [.ok 0]).constructed = true ∧ (block 0 .off [.ok 0]).oracle.peek 0 = .ok 0 ∧
    (block 0 .off [.ok 0x80, .ok 0xFF]).constructed = true ∧ (block 0 .off [.ok 0x80, .ok 0xFF]).oracle.peek 0 = .ok 0x80 ∧
    (0x80 : Byte) ≠ 0 ∧ (block 0 .off [.ok 0x80, .ok 0xFF]).oracle.peek 1 = .ok 0xFF := by decide

theorem witness_ReadIntCompletes :
    (block 0 .off [.ok 0]).constructed = true ∧ (block 0 .off [.ok 0]).mirrorOn = false ∧
    (block 0 .off [.ok 0]).oracle.peek 0 = .ok 0 ∧ (block 0 .on [.ok 1, .ok 0]).constructed = true ∧
    (block 0 .on [.ok 1, .ok 0]).mirrorOn = true ∧ (block 0 .on [.ok 1, .ok 0]).oracle.peek 0 = .ok 1 ∧ (1 : Byte) ≠ 0 ∧
    (block 0 .on [.ok 1, .ok 0]).oracle.peek 1 = .ok 0 := by decide

/-- A failure of either bank-A read, then the four ways a bank-B lookup can go. -/
theorem witness_MirroredReadIntUsesBankB :
    (block 0 .on [.ok 1, .fail]).mirrorOn = true ∧ (block 0 .on [.ok 1, .fail]).oracle.peek 0 = .ok 1 ∧
    (block 0 .on [.ok 1, .fail]).oracle.peek 1 = .fail ∧
    (block 0 .on [.fail]).mirrorOn = true ∧ (block 0 .on [.fail]).oracle.peek 0 = .fail ∧
    (block 0 .on [.ok 0, .fail]).oracle.peek 0 = .ok 0 ∧ (block 0 .on [.ok 0, .fail]).oracle.peek 1 = .fail ∧
    (block 0 .on [.ok 0, .ok 0]).oracle.peek 1 = .ok 0 ∧
    (block 0 .on [.ok 0, .ok 0x80, .fail]).oracle.peek 1 = .ok 0x80 ∧ (0x80 : Byte) ≠ 0 ∧
    (block 0 .on [.ok 0, .ok 0x80, .fail]).oracle.peek 2 = .fail ∧
    (block 0 .on [.ok 0, .ok 0x80, .ok 0x80]).constructed = true ∧
    (block 0 .on [.ok 0, .ok 0x80, .ok 0x80]).oracle.peek 2 = .ok 0x80 := by decide

theorem witness_ClearIntFirstPoll :
    (block 0 .off [.ok 0, .ok 0]).constructed = true ∧ (block 0 .off [.ok 0, .ok 0]).oracle.peek 0 = .ok 0 ∧
    (block 0 .off [.ok 0, .ok 0]).oracle.peek 1 = .ok 0 := by decide

/-- Both ends of the range of k at the default three retries: success at the first retry and at the last. -/
theorem witness_ClearIntSucceedsAtRetry_first :
    (block 0 .off [.ok 0, .ok 2, .ok 0, .ok 2]).constructed = true ∧
    0 < (block 0 .off [.ok 0, .ok 2, .ok 0, .ok 2]).config.clearRetries ∧
    (∀ j ≤ 0, (block 0 .off [.ok 0, .ok 2, .ok 0, .ok 2]).timer.peek j = true) ∧
    (∀ j ≤ 0 + 1, (block 0 .off [.ok 0, .ok 2, .ok 0, .ok 2]).oracle.peek (2 * j) = .ok 0 ∧
      (block 0 .off [.ok 0, .ok 2, .ok 0, .ok 2]).oracle.peek (2 * j + 1) = .ok 2) ∧
    ¬ ((0 : Byte) = 0 ∧ (2 : Byte) = 0) ∧ ((0 : Byte) = 0 ∨ (2 : Byte) = 0) := by decide

theorem witness_ClearIntSucceedsAtRetry_last :
    2 < (block 0 .off (List.replicate 6 (.ok 1) ++ [.ok 0, .ok 1])).config.clearRetries ∧
    (∀ j ≤ 2, (block 0 .off (List.replicate 6 (.ok 1) ++ [.ok 0, .ok 1])).timer.peek j = true) ∧
    (∀ j ≤ 2 + 1,
      (block 0 .off (List.replicate 6 (.ok 1) ++ [.ok 0, .ok 1])).oracle.peek (2 * j) = .ok (if j = 3 then 0 else 1) ∧
      (block 0 .off (List.replicate 6 (.ok 1) ++ [.ok 0, .ok 1])).oracle.peek (2 * j + 1) = .ok 1) ∧
    (∀ j ≤ 2, (if j = 3 then 0 else 1 : Byte) ≠ 0 ∧ (1 : Byte) ≠ 0) ∧ (if 3 = 3 then 0 else 1 : Byte) = 0 := by decide

theorem witness_ClearIntForcedClear :
    (block 0 .off (List.replicate 10 (.ok 1))).constructed = true ∧
    (∀ j < (block 0 .off (List.replicate 10 (.ok 1))).config.clearRetries,
      (block 0 .off (List.replicate 10 (.ok 1))).timer.peek j = true) ∧
    (∀ j ≤ (block 0 .off (List.replicate 10 (.ok 1))).config.clearRetries,
      (block 0 .off (List.replicate 10 (.ok 1))).oracle.peek (2 * j) = .ok 1 ∧
      (block 0 .off (List.replicate 10 (.ok 1))).oracle.peek (2 * j + 1) = .ok 1) ∧
    ¬ ((1 : Byte) = 0 ∧ (1 : Byte) = 0) ∧ (block 0 .off (List.replicate 10 (.ok 1))).oracle.peek (2 * 3 + 2) = .ok 1 ∧
    (block 0 .off (List.replicate 10 (.ok 1))).oracle.peek (2 * 3 + 3) = .ok 1 := by decide

/-- Both ends of the range of k: the first PAUSE never answered, and the third after two that are. -/
theorem witness_SilentPauseLeavesBlockStuck :
    0 < (timed (block 0 .off [.ok 0, .ok 2]) [false]).config.clearRetries ∧
    (timed (block 0 .off [.ok 0, .ok 2]) [false]).timer.peek 0 = false ∧
    (∀ j ≤ 0, (timed (block 0 .off [.ok 0, .ok 2]) [false]).oracle.peek (2 * j) = .ok 0 ∧
      (timed (block 0 .off [.ok 0, .ok 2]) [false]).oracle.peek (2 * j + 1) = .ok 2) ∧
    2 < (timed (block 0 .off (List.replicate 6 (.ok 1))) [true, true, false]).config.clearRetries ∧
    (∀ j < 2, (timed (block 0 .off (List.replicate 6 (.ok 1))) [true, true, false]).timer.peek j = true) ∧
    (timed (block 0 .off (List.replicate 6 (.ok 1))) [true, true, false]).timer.peek 2 = false ∧
    (∀ j ≤ 2, (timed (block 0 .off (List.replicate 6 (.ok 1))) [true, true, false]).oracle.peek (2 * j) = .ok 1 ∧
      (timed (block 0 .off (List.replicate 6 (.ok 1))) [true, true, false]).oracle.peek (2 * j + 1) = .ok 1) ∧
    ¬ ((1 : Byte) = 0 ∧ (1 : Byte) = 0) := by decide

theorem witness_ResetCompletes :
    (block 0 .off (List.replicate 16 (.ok 1))).constructed = true ∧
    (∀ k < 14, isOk ((block 0 .off (List.replicate 16 (.ok 1))).oracle.peek k) = true) ∧
    (block 0 .off (List.replicate 16 (.ok 1))).oracle.peek 14 = .ok 1 ∧
    (block 0 .off (List.replicate 16 (.ok 1))).oracle.peek 15 = .ok 1 := by decide

/-- The first and the last of the fourteen writes. -/
theorem witness_ResetStopsAtFailedWrite :
    (block 0 .off [.fail]).constructed = true ∧ (resetWrites (block 0 .off [.fail]).config)[0]? = some (0x00, 0xFF) ∧
    (block 0 .off [.fail]).oracle.peek 0 = .fail ∧
    (resetWrites (block 0 .off []).config)[13]? = some (0x07, 0x00) ∧
    (∀ k < 13, isOk ((block 0 .off (List.replicate 13 (.ok 0) ++ [.fail])).oracle.peek k) = true) ∧
    (block 0 .off (List.replicate 13 (.ok 0) ++ [.fail])).oracle.peek 13 = .fail := by decide

theorem witness_ConstructCompletes :
    isOk ((fresh (List.replicate 19 (.ok 7))).oracle.peek 0) = true ∧
    (fresh (List.replicate 19 (.ok 7))).oracle.peek 1 = .ok 7 ∧ (fresh (List.replicate 19 (.ok 7))).oracle.peek 2 = .ok 7 ∧
    (∀ k < 14, isOk ((fresh (List.replicate 19 (.ok 7))).oracle.peek (3 + k)) = true) ∧
    (fresh (List.replicate 19 (.ok 7))).oracle.peek 17 = .ok 7 ∧ (fresh (List.replicate 19 (.ok 7))).oracle.peek 18 = .ok 7 := by
  decide

/-- A failed and a waiting CONSTRUCT both give a next state that is not constructed. -/
theorem witness_FailedConstructLeavesUnconstructed :
    registers (block 1 .on [.fail]) 0x0000000000200031 = some (false, false, some 1, some .on) ∧
    registers (block 1 .on [.silent]) 0x0000000000200031 = some (false, true, some 1, some .on) := by decide

/-- Every command gives a next state in every state (WritersOfBlockState, StatusesOfEachCommand,
AddressesOfEachCommand). -/
theorem witness_exec_next (i : Instr) (s : State) : ∃ t, exec i s = .next t := ⟨_, exec_eq_program i s⟩

/-- A failed READ_CURRENT, and a failed GPIO write of WRITE_OUTPUT after its caught OLAT read and its GPIO read. -/
theorem witness_FailedTransactionEndsCommand :
    exec (.readCurrent 3) (block 0 .off [.fail]) =
      .next (((block 0 .off [.fail]).ran 1 ([] ++ readFail 0x12 :: [])).respond { status := .transport }) ∧
    (readFail 0x12).answer = .fail ∧ readCaught (.readCurrent 3) (block 0 .off [.fail]) [] = false ∧
    exec (.writeOutput 0 .low) (block 1 .off [.fail, .ok 1, .fail]) =
      .next (((block 1 .off [.fail, .ok 1, .fail]).ran 3
        ([readFail 0x14, readOk 0x12 1] ++ writeFail 0x12 0 :: [])).respond { status := .transport }) ∧
    (writeFail 0x12 0).answer = .fail ∧
    readCaught (.writeOutput 0 .low) (block 1 .off [.fail, .ok 1, .fail]) [readFail 0x14, readOk 0x12 1] = false :=
  ⟨rfl, rfl, rfl, rfl, rfl, rfl⟩

/-- The two caught reads: the OLAT read, and a read of bank B. -/
theorem test_readCaught :
    readCaught (.writeOutput 0 .low) (block 1 .off []) [] = true ∧
    readCaught (.readInt .B) (block 1 .on []) [readOk 0x0E 0] = true ∧
    readCaught (.readInt .B) (block 1 .on []) [readOk 0x0E 1] = false ∧
    readCaught (.readInt .B) (block 1 .on []) [] = false ∧
    readCaught (.readInt .A) (block 1 .off []) [readOk 0x0E 0] = false := by decide

theorem witness_AddressesOfEachCommand :
    exec (.readCurrent 3) (block 0 .off [.fail]) =
      .next (((block 0 .off [.fail]).ran 1 [readFail 0x12]).respond { status := .transport }) ∧
    eventAddress (readFail 0x12) = some 0x12 := ⟨rfl, rfl⟩

/-- A step that runs a command meets the hypothesis of ParametersNeverChange. -/
theorem witness_ParametersNeverChange : ∃ t, step (State.reset.present 0x01) = .next t := ⟨_, rfl⟩

theorem witness_HistoryIsNeverRead : step (fresh []) = .next (fresh []) := rfl

theorem witness_StepKeepsInvariant :
    (block 0xFFFF .on [.ok 0x08]).inv = true ∧
    step ((block 0xFFFF .on [.ok 0x08]).present 0x0000000000000314) =
      .next (((block 0xFFFF .on [.ok 0x08]).ran 1 [readOk 0x12 0x08]).respond { pin := 3, bit := true }) ∧
    ((block 0xFFFF .on [.ok 0x08]).present 0x0000000000000314).inv = true := ⟨by decide, rfl, by decide⟩

end Sys2Proof.Tests
end

section
/-! What a command and a step leave unchanged: every command's program keeps a part of the state that bus transactions and PAUSEs
keep, up to the block registers the command itself writes. -/

namespace Sys2Proof.Machine

/-! ### Keeping a part of the state: the programs -/

section Keeps

variable {γ : Type} {f : State → γ} (hran : ∀ s n evs, f (State.ran s n evs) = f s)
  (hwaited : ∀ s n, f (State.waited s n) = f s)

include hran

theorem keeps_readIntReg (c : Config) (bank : Bank) : Keeps f (readIntReg c bank) := by
  refine keeps_andThen (keeps_memRead hran _) fun flags => ?_
  split
  · exact keeps_ret f _
  · exact keeps_andThen (keeps_memRead hran _) fun _ => keeps_ret f _

theorem keeps_readInt (c : Config) (mirrored : Bool) (bank : Bank) : Keeps f (readInt c mirrored bank) := by
  refine keeps_andThen ?_ fun _ => keeps_ret f _
  cases mirrored with
  | false => exact keeps_readIntReg hran c bank
  | true =>
    refine keeps_andThen (keeps_readIntReg hran c .A) fun found => ?_
    cases found with
    | some _ => exact keeps_ret f _
    | none => exact keeps_catchTransport (keeps_readIntReg hran c .B) (keeps_ret f _)

theorem keeps_pollInt (c : Config) : Keeps f (pollInt c) :=
  keeps_andThen (keeps_memRead hran _) fun _ => keeps_andThen (keeps_memRead hran _) fun _ => keeps_ret f _

theorem keeps_cfgPinInt (c : Config) (dir : Word16) (p : Pin) (enabled : Feature) (compare : Compare)
    (dv : Option Level) : Keeps f (cfgPinInt c dir p enabled compare dv) := by
  unfold cfgPinInt
  split
  · exact keeps_raise f _
  · exact keeps_andThen (keeps_rmw hran _ _ _ _) fun _ => keeps_andThen (keeps_rmw hran _ _ _ _) fun _ =>
      keeps_andThen (keeps_rmw hran _ _ _ _) fun _ => keeps_ret f _

theorem keeps_readPin (c : Config) (p : Pin) : Keeps f (readPin c p) :=
  keeps_andThen (keeps_memRead hran _) fun _ => keeps_ret f _

theorem keeps_readInput (c : Config) (dir : Word16) (p : Pin) : Keeps f (readInput c dir p) := by
  unfold readInput
  split
  · exact keeps_raise f _
  · exact keeps_readPin hran c p

theorem keeps_writeOutput (c : Config) (dir : Word16) (p : Pin) (level : Level) :
    Keeps f (writeOutput c dir p level) := by
  unfold writeOutput
  split
  · exact keeps_raise f _
  · have latch := keeps_andThen (keeps_memRead hran (reg c .olat p.bank)) fun k => keeps_ret f (some k)
    exact keeps_andThen (keeps_catchTransport latch (keeps_ret f none)) fun _ =>
      keeps_andThen (keeps_rmw hran _ _ _ _) fun _ => keeps_ret f _

theorem keeps_construct (hdir : ∀ w, Keeps f (writeDir w)) (hmirror : ∀ m, Keeps f (writeMirror m))
    (hconstructed : ∀ b, Keeps f (writeConstructed b)) (c : Config) (addr : Byte) : Keeps f (construct c addr) := by
  unfold construct
  exact keeps_andThen (hconstructed _) fun _ => keeps_andThen (keeps_command hran _) fun _ =>
    keeps_andThen (keeps_memRead hran _) fun _ => keeps_andThen (keeps_memRead hran _) fun _ =>
    keeps_andThen (keeps_resetSeq hran _) fun _ => keeps_andThen (hdir _) fun _ =>
    keeps_andThen (hmirror _) fun _ => keeps_andThen (hconstructed _) fun _ => keeps_ret f _

include hwaited

theorem keeps_clearRetry (c : Config) (n : Nat) : Keeps f (clearRetry c n) := by
  induction n with
  | zero =>
    exact keeps_andThen (keeps_memRead hran _) fun _ => keeps_andThen (keeps_memRead hran _) fun _ => keeps_raise f _
  | succ n ih =>
    refine keeps_andThen (keeps_pause hran hwaited _) fun _ => keeps_andThen (keeps_pollInt hran c) fun flags => ?_
    split
    · exact keeps_ret f _
    · exact ih

theorem keeps_clearInt (c : Config) : Keeps f (clearInt c) := by
  refine keeps_andThen (keeps_pollInt hran c) fun flags => ?_
  split
  · exact keeps_ret f _
  · exact keeps_clearRetry hran hwaited c _

/-- A command's program keeps every part of the state that transactions and PAUSEs keep, provided the block registers the command
writes are no part of it: `dir` (R97, R136), `mirror` (R115, R136), `constructed` (R136). -/
theorem keeps_program (s : State) (i : Instr)
    (hdir : opcodeOf i = .setDirection ∨ opcodeOf i = .construct → ∀ w, Keeps f (writeDir w))
    (hmirror : opcodeOf i = .cfgSysInt ∨ opcodeOf i = .construct → ∀ m, Keeps f (writeMirror m))
    (hconstructed : opcodeOf i = .construct → ∀ b, Keeps f (writeConstructed b)) : Keeps f (program s i) := by
  cases i with
  | pinDecode index => exact keeps_ret f _
  | pinMode pin word => exact keeps_ret f _
  | setBit byte index value => exact keeps_ret f _
  | merge16 pin word byte => exact keeps_ret f _
  | rmw r pin value known => exact keeps_andThen (keeps_rmw hran _ _ _ _) fun _ => keeps_ret f _
  | setDirection pin mode =>
    exact keeps_andThen (keeps_rmw hran _ _ _ _) fun _ => keeps_andThen (hdir (.inl rfl) _) fun _ => keeps_ret f _
  | setPullUp pin level => exact keeps_andThen (keeps_rmw hran _ _ _ _) fun _ => keeps_ret f _
  | writeOutput pin level => exact keeps_writeOutput hran _ _ _ _
  | readInput pin => exact keeps_readInput hran _ _ _
  | readCurrent pin => exact keeps_readPin hran _ _
  | cfgSysInt mirror polarity =>
    exact keeps_andThen (keeps_memRead hran _) fun _ => keeps_andThen (keeps_command hran _) fun _ =>
      keeps_andThen (hmirror (.inl rfl) _) fun _ => keeps_ret f _
  | cfgPinInt pin enabled compare dv => exact keeps_cfgPinInt hran _ _ _ _ _ _
  | readIntReg bank => exact keeps_andThen (keeps_readIntReg hran _ _) fun _ => keeps_ret f _
  | readInt bank => exact keeps_readInt hran _ _ _
  | clearInt => exact keeps_clearInt hran hwaited _
  | reset => exact keeps_andThen (keeps_resetSeq hran _) fun _ => keeps_ret f _
  | construct addr => exact keeps_construct hran (hdir (.inr rfl)) (hmirror (.inr rfl)) (hconstructed rfl) _ _

end Keeps

/-- A command leaves a part of the state as it was where its program and its conclusion do. -/
theorem exec_keeps {γ : Type} {f : State → γ} {i : Instr} {s t : State} (hprogram : Keeps f (program s i))
    (hconclude : ∀ x, f (conclude x) = f x.2) (h : exec i s = .next t) : f t = f s := by
  rw [exec_eq_program] at h
  obtain rfl := Host.Outcome.next.inj h
  split
  · rw [hconclude, hprogram]
  · exact hconclude (.value notConstructedResponse, s)

/-- No command writes the parameters of R6. -/
theorem exec_config {i : Instr} {s t : State} (h : exec i s = .next t) : t.config = s.config := by
  have hconclude (x : Ended Response × State) : (conclude x).config = x.2.config := by
    obtain ⟨-, -, hconfig, -⟩ := conclude_keeps x
    exact hconfig
  have hprogram : Keeps State.config (program s i) :=
    keeps_program State.ran_config State.waited_config s i (fun _ _ _ => rfl) (fun _ _ _ => rfl) (fun _ _ _ => rfl)
  exact exec_keeps hprogram hconclude h

/-! ### The parameters of R6 -/

/-- Settles O49: a step waits, runs a command, or answers an illegal word, and none of the three writes the parameters. -/
theorem parametersNeverChange : Obligations.ParametersNeverChange := by
  intro s t h
  rcases step_cases s with ⟨-, hs⟩ | ⟨w, rest, -, -, ⟨i, -, hs⟩ | ⟨why, -, hs⟩⟩ <;> rw [hs] at h
  · obtain rfl := Host.Outcome.next.inj h
    rfl
  · rw [exec_config h]
  · obtain rfl := Host.Outcome.next.inj h
    rfl

/-- Settles O11: the parameters are literals, compared with the value column of R6 and the table of R43. -/
theorem defaultParameterValues : Obligations.DefaultParameterValues := by
  unfold Obligations.DefaultParameterValues
  decide

end Sys2Proof.Machine
end

section
/-! The block's state over a step: the forward equations of a step, what a command leaves of the block's registers, and two facts
about every command read off one description of how its program is built: it never looks at the history (R27, R146), and it
keeps the invariant of the block's states (R23, R25, R26, R41, R65). -/

namespace Sys2Proof.Machine

/-! ### A step, case by case -/

/-- A busy block accepts no command, and a block that is presented none waits (R26, R165). -/
theorem step_waits {s : State} (h : s.busy = true ∨ s.commands = []) : step s = .next s := by
  rcases step_cases s with ⟨-, hs⟩ | ⟨w, rest, hbusy, hcommands, -⟩
  · exact hs
  · simp [hbusy, hcommands] at h

/-- An idle block runs the command that the next word decodes to (R60). -/
theorem step_command {s : State} {w : CommandWord} {rest : List CommandWord} {i : Instr} (hbusy : s.busy = false)
    (hcommands : s.commands = w :: rest) (hdecode : decode s.config w = .command i) :
    step s = exec i { s with busy := true, commands := rest } := by
  simp [step, s.accept_idle w rest hbusy hcommands, hdecode]

/-- An idle block answers an illegal word (R64). -/
theorem step_illegal {s : State} {w : CommandWord} {rest : List CommandWord} {why : Illegal} (hbusy : s.busy = false)
    (hcommands : s.commands = w :: rest) (hdecode : decode s.config w = .illegal why) :
    step s = .next (State.respond { s with busy := true, commands := rest } illegalResponse) := by
  simp [step, s.accept_idle w rest hbusy hcommands, hdecode]

/-- Settles O9: neither a busy block nor an idle command port lets a word in. -/
theorem busyOrIdlePortChangesNothing : Obligations.BusyOrIdlePortChangesNothing :=
  fun _ => step_waits

/-- Settles O10: the values are those `State.reset` is written with. -/
theorem resetValues : Obligations.ResetValues :=
  ⟨rfl, rfl, rfl, rfl, rfl⟩

/-- Settles O12: block reset writes the four registers only, and the idle block it leaves waits. -/
theorem blockResetEffect : Obligations.BlockResetEffect := by
  intro s
  exact ⟨s.blockReset_constructed, s.blockReset_busy, s.blockReset_dir, s.blockReset_mirror, s.blockReset_trace,
    s.blockReset_oracle, s.blockReset_timer, fun hcommands => step_waits (.inr hcommands)⟩

/-! ### The writers of the block's registers -/

/-- No command takes or adds a word that the host has still to present. -/
theorem exec_commands {i : Instr} {s t : State} (h : exec i s = .next t) : t.commands = s.commands :=
  exec_keeps (f := State.commands) (keeps_program State.ran_commands State.waited_commands s i (fun _ _ _ => rfl)
    (fun _ _ _ => rfl) (fun _ _ _ => rfl)) (fun x => by simp [conclude_keeps x]) h

/-- Only SET_DIRECTION and CONSTRUCT write `dir` (R22). -/
theorem exec_dir {i : Instr} {s t : State} (h : exec i s = .next t) (hsetDirection : opcodeOf i ≠ .setDirection)
    (hconstruct : opcodeOf i ≠ .construct) : t.dir = s.dir :=
  exec_keeps (f := State.dir) (keeps_program State.ran_dir State.waited_dir s i
    (fun hw => absurd hw (not_or_intro hsetDirection hconstruct)) (fun _ _ _ => rfl) (fun _ _ _ => rfl))
    (fun x => by simp [conclude_keeps x]) h

/-- Only CFG_SYS_INT and CONSTRUCT write `mirror` (R24). -/
theorem exec_mirror {i : Instr} {s t : State} (h : exec i s = .next t) (hcfgSysInt : opcodeOf i ≠ .cfgSysInt)
    (hconstruct : opcodeOf i ≠ .construct) : t.mirror = s.mirror :=
  exec_keeps (f := State.mirror) (keeps_program State.ran_mirror State.waited_mirror s i (fun _ _ _ => rfl)
    (fun hw => absurd hw (not_or_intro hcfgSysInt hconstruct)) (fun _ _ _ => rfl))
    (fun x => by simp [conclude_keeps x]) h

/-- Only CONSTRUCT writes `constructed` (R25). -/
theorem exec_constructed {i : Instr} {s t : State} (h : exec i s = .next t) (hconstruct : opcodeOf i ≠ .construct) :
    t.constructed = s.constructed :=
  exec_keeps (f := State.constructed) (keeps_program State.ran_constructed State.waited_constructed s i
    (fun _ _ _ => rfl) (fun _ _ _ => rfl) (fun hw => absurd hw hconstruct)) (fun x => by simp [conclude_keeps x]) h

/-- Settles O48: one frame lemma per field, each for the commands that do not write it. -/
theorem writersOfBlockState : Obligations.WritersOfBlockState :=
  fun _ _ _ h => ⟨exec_config h, exec_commands h, exec_dir h, exec_mirror h, exec_constructed h⟩

/-! ### How the program of a command is built -/

/-- Pseudocode put together from the primitives of R8 and the writes of the block's registers, where `constructed` goes to 1 only
at the end, right after both caches were written (R136). -/
inductive IsPseudocode : {α : Type} → Bus α → Prop where
  | ret {α : Type} (a : α) : IsPseudocode (ret a)
  | raise {α : Type} (e : Error) : IsPseudocode (raise e : Bus α)
  | andThen {α β : Type} {m : Bus α} {g : α → Bus β} (hm : IsPseudocode m) (hg : ∀ a, IsPseudocode (g a)) :
      IsPseudocode (andThen m g)
  | catchTransport {α : Type} {m g : Bus α} (hm : IsPseudocode m) (hg : IsPseudocode g) :
      IsPseudocode (catchTransport m g)
  | memRead (r : Byte) : IsPseudocode (memRead r)
  | memWrite (r v : Byte) : IsPseudocode (memWrite r v)
  | setAddr (a : Byte) : IsPseudocode (setAddr a)
  | pause (ms : Nat) : IsPseudocode (pause ms)
  | writeDir (w : Word16) : IsPseudocode (writeDir w)
  | writeMirror (m : Feature) : IsPseudocode (writeMirror m)
  | clearConstructed : IsPseudocode (writeConstructed false)
  | setConstructed {α : Type} (w : Word16) (m : Feature) (a : α) :
      IsPseudocode (Machine.andThen (Machine.writeDir w) fun _ => Machine.andThen (Machine.writeMirror m) fun _ =>
        Machine.andThen (writeConstructed true) fun _ => Machine.ret a)

namespace IsPseudocode

theorem rmw (r : Byte) (p : Pin) (v : Bool) (kc : Option Byte) : IsPseudocode (rmw r p v kc) := by
  refine andThen ?_ fun _ => andThen (memWrite _ _) fun _ => ret _
  cases kc with
  | none => exact memRead r
  | some k => exact ret k

theorem writeAll (ws : List (Byte × Byte)) : IsPseudocode (writeAll ws) := by
  induction ws with
  | nil => exact ret ()
  | cons p ws ih => exact andThen (memWrite _ _) fun _ => ih

theorem resetSeq (c : Config) : IsPseudocode (resetSeq c) :=
  andThen (writeAll _) fun _ => andThen (memRead _) fun _ => andThen (memRead _) fun _ => ret _

theorem readPin (c : Config) (p : Pin) : IsPseudocode (readPin c p) :=
  andThen (memRead _) fun _ => ret _

theorem readInput (c : Config) (dir : Word16) (p : Pin) : IsPseudocode (readInput c dir p) := by
  unfold Machine.readInput
  split
  · exact raise _
  · exact readPin c p

theorem writeOutput (c : Config) (dir : Word16) (p : Pin) (level : Level) :
    IsPseudocode (writeOutput c dir p level) := by
  unfold Machine.writeOutput
  split
  · exact raise _
  · exact andThen (catchTransport (andThen (memRead _) fun _ => ret _) (ret _)) fun _ =>
      andThen (rmw _ _ _ _) fun _ => ret _

theorem cfgPinInt (c : Config) (dir : Word16) (p : Pin) (enabled : Feature) (compare : Compare) (dv : Option Level) :
    IsPseudocode (cfgPinInt c dir p enabled compare dv) := by
  unfold Machine.cfgPinInt
  split
  · exact raise _
  · exact andThen (rmw _ _ _ _) fun _ => andThen (rmw _ _ _ _) fun _ => andThen (rmw _ _ _ _) fun _ => ret _

theorem readIntReg (c : Config) (bank : Bank) : IsPseudocode (readIntReg c bank) := by
  refine andThen (memRead _) fun flags => ?_
  split
  · exact ret _
  · exact andThen (memRead _) fun _ => ret _

theorem readInt (c : Config) (mirrored : Bool) (bank : Bank) : IsPseudocode (readInt c mirrored bank) := by
  refine andThen ?_ fun _ => ret _
  cases mirrored with
  | false => exact readIntReg c bank
  | true =>
    refine andThen (readIntReg c .A) fun found => ?_
    cases found with
    | some _ => exact ret _
    | none => exact catchTransport (readIntReg c .B) (ret _)

theorem pollInt (c : Config) : IsPseudocode (pollInt c) :=
  andThen (memRead _) fun _ => andThen (memRead _) fun _ => ret _

theorem clearRetry (c : Config) (n : Nat) : IsPseudocode (clearRetry c n) := by
  induction n with
  | zero => exact andThen (memRead _) fun _ => andThen (memRead _) fun _ => raise _
  | succ n ih =>
    refine andThen (pause _) fun _ => andThen (pollInt c) fun flags => ?_
    split
    · exact ret _
    · exact ih

theorem clearInt (c : Config) : IsPseudocode (clearInt c) := by
  refine andThen (pollInt c) fun flags => ?_
  split
  · exact ret _
  · exact clearRetry c _

theorem construct (c : Config) (addr : Byte) : IsPseudocode (construct c addr) :=
  andThen clearConstructed fun _ => andThen (setAddr addr) fun _ => andThen (memRead _) fun _ => andThen (memRead _) fun _ =>
    andThen (resetSeq c) fun _ => setConstructed _ _ _

/-- The program of every command is put together so. -/
theorem program (s : State) (i : Instr) : IsPseudocode (program s i) := by
  cases i with
  | pinDecode index => exact ret _
  | pinMode pin word => exact ret _
  | setBit byte index value => exact ret _
  | merge16 pin word byte => exact ret _
  | rmw r pin value known => exact andThen (rmw _ _ _ _) fun _ => ret _
  | setDirection pin mode => exact andThen (rmw _ _ _ _) fun _ => andThen (writeDir _) fun _ => ret _
  | setPullUp pin level => exact andThen (rmw _ _ _ _) fun _ => ret _
  | writeOutput pin level => exact writeOutput _ _ _ _
  | readInput pin => exact readInput _ _ _
  | readCurrent pin => exact readPin _ _
  | cfgSysInt mirror polarity =>
    exact andThen (memRead _) fun _ => andThen (memWrite _ _) fun _ => andThen (writeMirror mirror) fun _ => ret _
  | cfgPinInt pin enabled compare dv => exact cfgPinInt _ _ _ _ _ _
  | readIntReg bank => exact andThen (readIntReg _ bank) fun _ => ret _
  | readInt bank => exact readInt _ _ bank
  | clearInt => exact clearInt _
  | reset => exact andThen (resetSeq _) fun _ => ret _
  | construct addr => exact construct _ addr

end IsPseudocode

/-! ### The history is never read -/

theorem IsPseudocode.historyFree {α : Type} {m : Bus α} (h : IsPseudocode m) : HistoryFree m := by
  induction h with
  | ret a => exact historyFree_ret a
  | raise e => exact historyFree_raise e
  | andThen _ _ ihm ihg => exact historyFree_andThen ihm ihg
  | catchTransport _ _ ihm ihg => exact historyFree_catchTransport ihm ihg
  | memRead r => exact historyFree_memRead r
  | memWrite r v => exact historyFree_command _
  | setAddr a => exact historyFree_command _
  | pause ms => exact historyFree_pause ms
  | writeDir w => exact fun _ _ _ => rfl
  | writeMirror m => exact fun _ _ _ => rfl
  | clearConstructed => exact fun _ _ _ => rfl
  | setConstructed w m a => exact fun _ _ _ => rfl

/-- What a command will do is fixed by the parameters and the block's registers, not by the history. -/
theorem program_withHistory (s : State) (h : List Event) (rs : List ResponseWord) (i : Instr) :
    program (s.withHistory h rs) i = program s i := by
  cases i <;> rfl

theorem State.respond_withHistory (s : State) (h : List Event) (rs : List ResponseWord) (r : Response) :
    (s.withHistory h rs).respond r = (s.respond r).withHistory h rs := by
  simp [State.respond, State.withHistory]

theorem conclude_withHistory (x : Ended Response) (s : State) (h : List Event) (rs : List ResponseWord) :
    conclude (x, s.withHistory h rs) = (conclude (x, s)).withHistory h rs := by
  cases x with
  | value r => exact s.respond_withHistory h rs r
  | raised e => exact s.respond_withHistory h rs _
  | waiting => rfl

/-- A command does the same after another history, and appends the same. -/
theorem exec_withHistory {i : Instr} {s t : State} (h : List Event) (rs : List ResponseWord)
    (ht : exec i s = .next t) : exec i (s.withHistory h rs) = .next (t.withHistory h rs) := by
  have hrun := (IsPseudocode.program s i).historyFree s h rs
  rw [exec_eq_program] at ht
  obtain rfl := Host.Outcome.next.inj ht
  rw [exec_eq_program, program_withHistory, hrun, conclude_withHistory, State.respond_withHistory]
  exact congrArg Host.Outcome.next (apply_ite (State.withHistory · h rs) _ _ _).symm

/-- Settles O54: the three things a step can do are chosen by the registers and the command port, and each commutes with putting
a history before the state's own. -/
theorem historyIsNeverRead : Obligations.HistoryIsNeverRead := by
  intro s t h rs ht
  change step (s.withHistory h rs) = .next (t.withHistory h rs)
  rcases step_cases s with ⟨hwait, hs⟩ | ⟨w, rest, hbusy, hcommands, ⟨i, hdecode, hs⟩ | ⟨why, hdecode, hs⟩⟩ <;>
    rw [hs] at ht
  · obtain rfl := Host.Outcome.next.inj ht
    exact step_waits (s := s.withHistory h rs) hwait
  · rw [step_command (s := s.withHistory h rs) hbusy hcommands hdecode]
    exact exec_withHistory h rs ht
  · obtain rfl := Host.Outcome.next.inj ht
    rw [step_illegal (s := s.withHistory h rs) hbusy hcommands hdecode, ← State.respond_withHistory]
    rfl

/-! ### The caches of a constructed block -/

/-- The pseudocode leaves a constructed block its caches (R23, R25). -/
def KeepsCaches {α : Type} (m : Bus α) : Prop := ∀ s, s.cachesHeld = true → (m s).2.cachesHeld = true

theorem Keeps.keepsCaches {α : Type} {m : Bus α} (h : Keeps State.cachesHeld m) : KeepsCaches m :=
  fun s hs => (h s).trans hs

theorem keepsCaches_andThen {α β : Type} {m : Bus α} {g : α → Bus β} (hm : KeepsCaches m)
    (hg : ∀ a, KeepsCaches (g a)) : KeepsCaches (andThen m g) := by
  intro s hs
  have hmid := hm s hs
  rcases andThen_cases m g s with ⟨a, t, h, e⟩ | ⟨x, t, h, e⟩ | ⟨t, h, e⟩ <;> rw [h] at hmid <;> rw [e]
  · exact hg a t hmid
  · exact hmid
  · exact hmid

theorem keepsCaches_catchTransport {α : Type} {m g : Bus α} (hm : KeepsCaches m) (hg : KeepsCaches g) :
    KeepsCaches (catchTransport m g) := by
  intro s hs
  have hmid := hm s hs
  rcases catchTransport_cases m g s with ⟨t, h, e⟩ | ⟨-, e⟩
  · rw [h] at hmid
    rw [e]
    exact hg t hmid
  · rwa [e]

theorem State.ran_cachesHeld (s : State) (n : Nat) (evs : List Event) : (s.ran n evs).cachesHeld = s.cachesHeld := rfl

theorem State.waited_cachesHeld (s : State) (n : Nat) : (s.waited n).cachesHeld = s.cachesHeld := rfl

theorem State.cachesHeld_iff (s : State) :
    s.cachesHeld = true ↔ (s.constructed = true → s.dir.isSome = true ∧ s.mirror.isSome = true) := by
  cases h : s.constructed <;> simp [State.cachesHeld, h]

theorem keepsCaches_writeDir (w : Word16) : KeepsCaches (writeDir w) := by
  intro s hs
  rw [State.cachesHeld_iff] at hs ⊢
  exact fun hconstructed => ⟨rfl, (hs hconstructed).2⟩

theorem keepsCaches_writeMirror (m : Feature) : KeepsCaches (writeMirror m) := by
  intro s hs
  rw [State.cachesHeld_iff] at hs ⊢
  exact fun hconstructed => ⟨(hs hconstructed).1, rfl⟩

theorem IsPseudocode.keepsCaches {α : Type} {m : Bus α} (h : IsPseudocode m) : KeepsCaches m := by
  induction h with
  | ret a => exact (keeps_ret _ a).keepsCaches
  | raise e => exact (keeps_raise _ e).keepsCaches
  | andThen _ _ ihm ihg => exact keepsCaches_andThen ihm ihg
  | catchTransport _ _ ihm ihg => exact keepsCaches_catchTransport ihm ihg
  | memRead r => exact (keeps_memRead State.ran_cachesHeld r).keepsCaches
  | memWrite r v => exact (keeps_command State.ran_cachesHeld _).keepsCaches
  | setAddr a => exact (keeps_command State.ran_cachesHeld _).keepsCaches
  | pause ms => exact (keeps_pause State.ran_cachesHeld State.waited_cachesHeld ms).keepsCaches
  | writeDir w => exact keepsCaches_writeDir w
  | writeMirror m => exact keepsCaches_writeMirror m
  | clearConstructed => exact fun _ _ => rfl
  | setConstructed w m a => exact fun _ _ => rfl

/-! ### What a command leaves in the trace and on the response port -/

/-- Every command's events are formed as R41 says and fit its end. -/
theorem IsPseudocode.traces {α : Type} {m : Bus α} (h : IsPseudocode m) : Traces (fun _ => True) m := by
  induction h with
  | ret a => exact traces_ret _ a
  | raise e => exact traces_raise _ e
  | andThen _ _ ihm ihg => exact traces_andThen ihm ihg
  | catchTransport _ _ ihm ihg => exact traces_catchTransport ihm ihg
  | memRead r => exact traces_memRead r fun _ => trivial
  | memWrite r v => exact traces_memWrite r v fun _ => trivial
  | setAddr a => exact traces_setAddr a fun _ => trivial
  | pause ms => exact traces_pause ms trivial trivial
  | writeDir w => exact traces_write _ (fun _ => rfl) (fun _ => rfl) (fun _ => rfl)
  | writeMirror m => exact traces_write _ (fun _ => rfl) (fun _ => rfl) (fun _ => rfl)
  | clearConstructed => exact traces_write _ (fun _ => rfl) (fun _ => rfl) (fun _ => rfl)
  | setConstructed w m a => exact fun s => ⟨[], (List.append_nil _).symm, ⟨rfl, rfl⟩, by simp, .inl ⟨nofun, by simp⟩⟩

/-- The STATUS field of a response word (R65). -/
theorem statusField_responseWord (r : Response) : statusField (responseWord r) = statusCode r.status := by
  unfold statusField responseWord
  exact BitVec.extractLsb'_append_eq_right

/-- The reserved fields of a response word are zero (R65). -/
theorem reservedFields_responseWord (r : Response) :
    (responseWord r).extractLsb' 5 3 = 0 ∧ (responseWord r).extractLsb' 13 3 = 0 := by
  unfold responseWord
  constructor
  · iterate 2 rw [BitVec.extractLsb'_append_eq_of_le (by decide)]
    exact BitVec.extractLsb'_append_eq_right
  · iterate 5 rw [BitVec.extractLsb'_append_eq_of_le (by decide)]
    exact BitVec.extractLsb'_append_eq_right

theorem statusCode_le (st : Status) : (statusCode st).toNat ≤ 5 := by
  cases st <;> decide

theorem responseFormed_responseWord (r : Response) : responseFormed (responseWord r) = true := by
  obtain ⟨hlow, hhigh⟩ := reservedFields_responseWord r
  simp [responseFormed, hlow, hhigh, statusField_responseWord, statusCode_le]

/-! ### The invariant -/

theorem State.busyIffUnanswered_iff (s : State) :
    s.busyIffUnanswered = true ↔ (s.busy = true ↔ ∃ e ∈ s.trace, e.answer = .unanswered) := by
  rw [State.busyIffUnanswered, decide_eq_true_iff, Bool.eq_iff_iff]
  simp

theorem State.inv_iff (s : State) :
    s.inv = true ↔ s.cachesHeld = true ∧ (s.busy = true ↔ ∃ e ∈ s.trace, e.answer = .unanswered) ∧
      (∀ e ∈ s.trace, eventFormed e = true) ∧ ∀ w ∈ s.responses, responseFormed w = true := by
  simp [State.inv, State.busyIffUnanswered_iff, and_assoc]

/-- What a command needs of the state it runs in: the invariant with its clause on `busy` replaced by "every event so far has its
answer".  While a command runs the invariant itself fails, for `busy` is then 1 (R26). -/
structure State.Runnable (s : State) : Prop where
  caches : s.cachesHeld = true
  answered : ∀ e ∈ s.trace, e.answer ≠ .unanswered
  events : ∀ e ∈ s.trace, eventFormed e = true
  responses : ∀ w ∈ s.responses, responseFormed w = true

/-- A block of the invariant that accepts a word may run its command. -/
theorem State.Runnable.of_inv {s : State} (hs : s.inv = true) (hbusy : s.busy = false) (rest : List CommandWord) :
    State.Runnable { s with busy := true, commands := rest } := by
  obtain ⟨caches, hanswered, events, responses⟩ := s.inv_iff.1 hs
  exact ⟨caches, fun e he hsilent => by simp [hanswered.2 ⟨e, he, hsilent⟩] at hbusy, events, responses⟩

/-- A response brings back the invariant. -/
theorem State.Runnable.inv_respond {s : State} (hs : s.Runnable) (r : Response) : (s.respond r).inv = true := by
  rw [State.inv_iff]
  refine ⟨hs.caches, ⟨?_, ?_⟩, hs.events, fun w hw => ?_⟩
  · exact fun hbusy => nomatch hbusy
  · exact fun ⟨e, he, hsilent⟩ => absurd hsilent (hs.answered e he)
  · rcases List.mem_append.1 hw with hold | hnew
    · exact hs.responses w hold
    · rw [List.mem_singleton.1 hnew]
      exact responseFormed_responseWord r

/-- A command that ends, with its response or stuck on an event without an answer (R173), leaves a state of the invariant. -/
theorem State.Runnable.inv_conclude {s : State} (hs : s.Runnable) {m : Bus Response} (hm : IsPseudocode m)
    (hresponses : Keeps State.responses m) : (conclude (m s)).inv = true := by
  obtain ⟨evs, htrace, -, hevs, hend⟩ := hm.traces s
  have caches := hm.keepsCaches s hs.caches
  have responses := hs.responses
  rw [← hresponses s] at responses
  have events : ∀ e ∈ (m s).2.trace, eventFormed e = true := by
    rw [htrace]
    exact List.forall_mem_append.2 ⟨hs.events, fun e he => (hevs e he).2⟩
  rcases hend with ⟨hended, hanswered⟩ | ⟨hwaiting, q, before, rfl, -⟩
  · have answered : ∀ e ∈ (m s).2.trace, e.answer ≠ .unanswered := by
      rw [htrace]
      exact List.forall_mem_append.2 ⟨hs.answered, hanswered⟩
    have hrunnable : (m s).2.Runnable := ⟨caches, answered, events, responses⟩
    rcases hms : m s with ⟨r | e | _, t⟩ <;> rw [hms] at hrunnable hended
    · exact hrunnable.inv_respond r
    · exact hrunnable.inv_respond _
    · exact absurd rfl hended
  · have hstuck : conclude (m s) = { (m s).2 with busy := true } := by
      rw [← conclude_waiting, ← hwaiting]
    rw [hstuck, State.inv_iff]
    have hlast : ⟨q, .unanswered⟩ ∈ (m s).2.trace := by simp [htrace]
    exact ⟨caches, ⟨fun _ => ⟨_, hlast, rfl⟩, fun _ => rfl⟩, events, responses⟩

/-- Every command leads from a state in which it may run to a state of the invariant. -/
theorem exec_inv {i : Instr} {s t : State} (hs : s.Runnable) (h : exec i s = .next t) : t.inv = true := by
  rw [exec_eq_program] at h
  obtain rfl := Host.Outcome.next.inj h
  split
  · exact hs.inv_conclude (IsPseudocode.program s i) (keeps_program State.ran_responses State.waited_responses s i
      (fun _ _ _ => rfl) (fun _ _ _ => rfl) (fun _ _ _ => rfl))
  · exact hs.inv_respond _

/-- Settles O55: a block that waits keeps its state, and one that accepts a word may run it, which ends in the invariant. -/
theorem stepKeepsInvariant : Obligations.StepKeepsInvariant := by
  intro s t hinv ht
  rcases step_cases s with ⟨-, hs⟩ | ⟨w, rest, hbusy, -, ⟨i, -, hs⟩ | ⟨why, -, hs⟩⟩ <;> rw [hs] at ht
  · rwa [← Host.Outcome.next.inj ht]
  · exact exec_inv (.of_inv hinv hbusy rest) ht
  · rw [← Host.Outcome.next.inj ht]
    exact (State.Runnable.of_inv hinv hbusy rest).inv_respond _

/-- Settles O56: nothing has been done or answered, and the block is not constructed. -/
theorem invariantAtReset : Obligations.InvariantAtReset := by
  unfold Obligations.InvariantAtReset
  decide

end Sys2Proof.Machine
end

section
/-! The transactions of a command (20_memory.md): the byte CFG_SYS_INT writes (R54), which registers a command may address (R43),
and what a failed transaction does to it (R44, R145, R147).  The last two are read off one description of the commands'
programs: but for WRITE_OUTPUT and a mirrored READ_INT, no program catches a failure. -/

namespace Sys2Proof.Machine

/-! ### CFG_SYS_INT (R54, R115) -/

/-- The program of CFG_SYS_INT, both transactions answered ok (R115). -/
theorem cfgSysInt_ok (c : Config) (m : Feature) (pol : Level) (v : Byte) (s : State) (hread : s.oracle.peek 0 = .ok v)
    (hwrite : isOk (s.oracle.peek 1) = true) :
    cfgSysInt c m pol s = (.value { }, { s.ran 2 [readOk (reg c .iocon .A) v, writeOk (reg c .iocon .A)
      (setBit8 (setBit8 v c.ioconMirrorBit (featureBit m)) c.ioconIntpolBit (levelBit pol))] with mirror := some m }) := by
  rw [cfgSysInt, andThen_value _ _ _ _ _ (memRead_ok _ v s hread),
    andThen_value _ _ _ _ _ (memWrite_ok _ _ _ (by simpa using hwrite)), State.ran_ran]
  rfl

/-- Settles O33: each of the two SET_BITs of CFG_SYS_INT changes its own position only. -/
theorem ioconKeepsOtherSixBits : Obligations.IoconKeepsOtherSixBits := by
  intro m pol v s hconstructed hmirror hintpol hread hwrite
  refine ⟨_, setBit8 (setBit8 v 6 (featureBit m)) 1 (levelBit pol), exec_of_runs _ s (.inr hconstructed), ?_, fun j => ?_⟩
  · rw [program, cfgSysInt_ok _ m pol v s hread hwrite, hmirror, hintpol]
    rfl
  · rw [getLsbD_setBit8, getLsbD_setBit8]
    change (if j = 1 then _ else if j = 6 then _ else _) = _
    by_cases hj : j = 6 <;> simp [hj]

/-! ### What a command's program is -/

/-- A command answers NOT_CONSTRUCTED or concludes its program (R148). -/
theorem exec_cases {i : Instr} {s t : State} (h : exec i s = .next t) :
    t = s.respond notConstructedResponse ∨ t = conclude (program s i s) := by
  rw [exec_eq_program] at h
  obtain rfl := Host.Outcome.next.inj h
  split
  · exact .inr rfl
  · exact .inl rfl

theorem conclude_trace (x : Ended Response × State) : (conclude x).trace = x.2.trace := (conclude_keeps x).1

/-- Statements after a sequence are statements after its second part. -/
theorem andThen_assoc {α β γ : Type} (m : Bus α) (f : α → Bus β) (g : β → Bus γ) :
    andThen (andThen m f) g = andThen m fun a => andThen (f a) g := by
  funext s
  rcases andThen_cases m f s with ⟨a, t, h, e⟩ | ⟨x, t, h, e⟩ | ⟨t, h, e⟩
  · rw [andThen_value _ _ _ _ _ h]
    simp only [andThen, h]
  · rw [andThen_raised _ _ _ _ _ h, andThen_raised _ _ _ _ _ e]
  · rw [andThen_waiting _ _ _ _ h, andThen_waiting _ _ _ _ e]

theorem ret_andThen {α β : Type} (a : α) (f : α → Bus β) : andThen (ret a) f = f a := rfl

/-- READ_INT with mirror Off is READ_INT_REG (R119). -/
theorem readInt_unmirrored (c : Config) (bank : Bank) :
    readInt c false bank = andThen (readIntReg c bank) fun r => ret (interruptResponse r) := rfl

/-- READ_INT with mirror On, by its first read: bank B, its failures caught, exactly where INTF of bank A is 0 (R119). -/
theorem readInt_mirrored (c : Config) (bank : Bank) :
    readInt c true bank = andThen (memRead (reg c .intf .A)) fun f =>
      if f = 0 then andThen (catchTransport (readIntReg c .B) (ret none)) fun r => ret (interruptResponse r)
      else andThen (memRead (reg c .intcap .A)) fun v =>
        ret (interruptResponse (some (pinAt c.geometry .A (hsb f), v.getLsbD (hsb f).toNat))) := by
  rw [readInt, if_pos rfl, readIntReg, andThen_assoc, andThen_assoc]
  congr 1
  funext f
  split
  · rfl
  · simp only [andThen_assoc, ret_andThen]

/-! ### Programs without `catch` -/

/-- Pseudocode put together without `catch` (R8) whose reads and writes go to register addresses of `R`. -/
inductive CatchFree (R : Byte → Prop) : {α : Type} → Bus α → Prop where
  | ret {α : Type} (a : α) : CatchFree R (ret a)
  | raise {α : Type} (e : Error) : CatchFree R (raise e : Bus α)
  | andThen {α β : Type} {m : Bus α} {g : α → Bus β} (hm : CatchFree R m) (hg : ∀ a, CatchFree R (g a)) :
      CatchFree R (andThen m g)
  | memRead {r : Byte} (hr : R r) : CatchFree R (memRead r)
  | memWrite {r : Byte} (hr : R r) (v : Byte) : CatchFree R (memWrite r v)
  | setAddr (a : Byte) : CatchFree R (setAddr a)
  | pause (ms : Nat) : CatchFree R (pause ms)
  | writeDir (w : Word16) : CatchFree R (writeDir w)
  | writeMirror (m : Feature) : CatchFree R (writeMirror m)
  | writeConstructed (b : Bool) : CatchFree R (writeConstructed b)

/-- The registers a command may address: RMW its operand, any other command those its row of R43 names, in either bank. -/
def MayAddress (s : State) (i : Instr) (r : Byte) : Prop :=
  (∃ pin v kc, i = .rmw r pin v kc) ∨ ∃ n bank, n ∈ usedRegs i ∧ r = reg s.config n bank

theorem mayAddress_reg {s : State} {i : Instr} {n : RegName} (hn : n ∈ usedRegs i) (bank : Bank) :
    MayAddress s i (reg s.config n bank) :=
  .inr ⟨n, bank, hn, rfl⟩

/-- The reset sequence writes the registers of its row of R43, bank A and then bank B of each (R135). -/
theorem resetWrites_addresses (c : Config) :
    (resetWrites c).map Prod.fst =
      ((usedRegs .reset).flatMap fun n => [reg c n .A, reg c n .B]).take c.geometry.resetWrites :=
  List.map_take

theorem address_of_mem_resetWrites {c : Config} {p : Byte × Byte} (hp : p ∈ resetWrites c) :
    ∃ n ∈ usedRegs .reset, ∃ bank, p.1 = reg c n bank := by
  have haddress := List.mem_map_of_mem (f := Prod.fst) hp
  rw [resetWrites_addresses] at haddress
  obtain ⟨n, hn, hbanks⟩ := List.mem_flatMap.1 (List.mem_of_mem_take haddress)
  rcases List.mem_pair.1 hbanks with h | h
  · exact ⟨n, hn, .A, h⟩
  · exact ⟨n, hn, .B, h⟩

namespace CatchFree

section

variable {R : Byte → Prop}

theorem rmw {r : Byte} (hr : R r) (p : Pin) (v : Bool) (kc : Option Byte) : CatchFree R (rmw r p v kc) := by
  refine andThen ?_ fun _ => andThen (memWrite hr _) fun _ => ret _
  cases kc with
  | none => exact memRead hr
  | some k => exact ret k

theorem writeAll {ws : List (Byte × Byte)} (hws : ∀ p ∈ ws, R p.1) : CatchFree R (writeAll ws) := by
  induction ws with
  | nil => exact ret ()
  | cons p ws ih =>
    obtain ⟨hp, hrest⟩ := List.forall_mem_cons.1 hws
    exact andThen (memWrite hp _) fun _ => ih hrest

theorem resetSeq {c : Config} (hR : ∀ n ∈ usedRegs .reset, ∀ bank, R (reg c n bank)) : CatchFree R (resetSeq c) := by
  have hwrites : ∀ p ∈ resetWrites c, R p.1 := fun p hp => by
    obtain ⟨n, hn, bank, h⟩ := address_of_mem_resetWrites hp
    exact h ▸ hR n hn bank
  have hgpio := hR .gpio (by decide)
  exact andThen (writeAll hwrites) fun _ => andThen (memRead (hgpio .A)) fun _ => andThen (memRead (hgpio .B)) fun _ => ret _

theorem construct {c : Config} (hR : ∀ n ∈ usedRegs .reset, ∀ bank, R (reg c n bank)) (addr : Byte) :
    CatchFree R (construct c addr) := by
  have hiodir := hR .iodir (by decide)
  exact andThen (writeConstructed _) fun _ => andThen (setAddr addr) fun _ => andThen (memRead (hiodir .A)) fun _ =>
    andThen (memRead (hiodir .B)) fun _ => andThen (resetSeq hR) fun _ => andThen (writeDir _) fun _ =>
    andThen (writeMirror _) fun _ => andThen (writeConstructed _) fun _ => ret _

theorem cfgPinInt {c : Config} {p : Pin} (hgpinten : R (reg c .gpinten p.bank)) (hintcon : R (reg c .intcon p.bank))
    (hdefval : R (reg c .defval p.bank)) (dir : Word16) (enabled : Feature) (compare : Compare) (dv : Option Level) :
    CatchFree R (cfgPinInt c dir p enabled compare dv) := by
  unfold Machine.cfgPinInt
  split
  · exact raise _
  · exact andThen (rmw hgpinten _ _ _) fun _ => andThen (rmw hintcon _ _ _) fun _ =>
      andThen (rmw hdefval _ _ _) fun _ => ret _

theorem readPin {c : Config} {p : Pin} (hgpio : R (reg c .gpio p.bank)) : CatchFree R (readPin c p) :=
  andThen (memRead hgpio) fun _ => ret _

theorem readInput {c : Config} {p : Pin} (hgpio : R (reg c .gpio p.bank)) (dir : Word16) :
    CatchFree R (readInput c dir p) := by
  unfold Machine.readInput
  split
  · exact raise _
  · exact readPin hgpio

theorem readIntReg {c : Config} {bank : Bank} (hintf : R (reg c .intf bank)) (hintcap : R (reg c .intcap bank)) :
    CatchFree R (readIntReg c bank) := by
  refine andThen (memRead hintf) fun flags => ?_
  split
  · exact ret _
  · exact andThen (memRead hintcap) fun _ => ret _

theorem pollInt {c : Config} (hintf : ∀ bank, R (reg c .intf bank)) : CatchFree R (pollInt c) :=
  andThen (memRead (hintf .A)) fun _ => andThen (memRead (hintf .B)) fun _ => ret _

theorem clearRetry {c : Config} (hintf : ∀ bank, R (reg c .intf bank)) (hgpio : ∀ bank, R (reg c .gpio bank)) (n : Nat) :
    CatchFree R (clearRetry c n) := by
  induction n with
  | zero => exact andThen (memRead (hgpio .A)) fun _ => andThen (memRead (hgpio .B)) fun _ => raise _
  | succ n ih =>
    refine andThen (pause _) fun _ => andThen (pollInt hintf) fun flags => ?_
    split
    · exact ret _
    · exact ih

theorem clearInt {c : Config} (hintf : ∀ bank, R (reg c .intf bank)) (hgpio : ∀ bank, R (reg c .gpio bank)) :
    CatchFree R (clearInt c) := by
  refine andThen (pollInt hintf) fun flags => ?_
  split
  · exact ret _
  · exact clearRetry hintf hgpio _

end

end CatchFree

/-- Only WRITE_OUTPUT and READ_INT with mirror On catch a failure (R99, R119, R145); the registers every other command addresses
are its own. -/
theorem program_cases (s : State) (i : Instr) :
    CatchFree (MayAddress s i) (program s i) ∨ (∃ pin level, i = .writeOutput pin level) ∨
      ∃ bank, i = .readInt bank ∧ s.mirrorOn = true := by
  have may {n : RegName} (hn : n ∈ usedRegs i) : ∀ bank, MayAddress s i (reg s.config n bank) := mayAddress_reg hn
  cases i with
  | pinDecode index => exact .inl (.ret _)
  | pinMode pin word => exact .inl (.ret _)
  | setBit byte index value => exact .inl (.ret _)
  | merge16 pin word byte => exact .inl (.ret _)
  | rmw r pin value known =>
    exact .inl (.andThen (.rmw (.inl ⟨pin, value, known, rfl⟩) _ _ _) fun _ => .ret _)
  | setDirection pin mode =>
    exact .inl (.andThen (.rmw (may (by simp [usedRegs]) _) _ _ _) fun _ => .andThen (.writeDir _) fun _ => .ret _)
  | setPullUp pin level => exact .inl (.andThen (.rmw (may (by simp [usedRegs]) _) _ _ _) fun _ => .ret _)
  | writeOutput pin level => exact .inr (.inl ⟨pin, level, rfl⟩)
  | readInput pin => exact .inl (.readInput (may (by simp [usedRegs]) _) _)
  | readCurrent pin => exact .inl (.readPin (may (by simp [usedRegs]) _))
  | cfgSysInt mirror polarity =>
    have hiocon := may (n := .iocon) (by simp [usedRegs]) .A
    exact .inl (.andThen (.memRead hiocon) fun _ => .andThen (.memWrite hiocon _) fun _ =>
      .andThen (.writeMirror mirror) fun _ => .ret _)
  | cfgPinInt pin enabled compare dv =>
    exact .inl (.cfgPinInt (may (by simp [usedRegs]) _) (may (by simp [usedRegs]) _) (may (by simp [usedRegs]) _) _ _ _ _)
  | readIntReg bank =>
    exact .inl (.andThen (.readIntReg (may (by simp [usedRegs]) _) (may (by simp [usedRegs]) _)) fun _ => .ret _)
  | readInt bank =>
    cases hmirror : s.mirrorOn with
    | true => exact .inr (.inr ⟨bank, rfl, rfl⟩)
    | false =>
      rw [program, hmirror, readInt_unmirrored]
      exact .inl (.andThen (.readIntReg (may (by simp [usedRegs]) _) (may (by simp [usedRegs]) _)) fun _ => .ret _)
  | clearInt => exact .inl (.clearInt (may (by simp [usedRegs])) (may (by simp [usedRegs])))
  | reset => exact .inl (.andThen (.resetSeq fun _ hn => may hn) fun _ => .ret _)
  | construct addr => exact .inl (.construct (fun _ hn => may hn) addr)

/-! ### The registers a command addresses -/

/-- The register address of the event, if it carries one, is of `R`. -/
def AddressIn (R : Byte → Prop) (e : Event) : Prop := ∀ r, eventAddress e = some r → R r

theorem addressIn_read {R : Byte → Prop} {r : Byte} (hr : R r) (a : Answer) : AddressIn R ⟨.read r, a⟩ :=
  fun _ h => Option.some.inj h ▸ hr

theorem addressIn_write {R : Byte → Prop} {r : Byte} (hr : R r) (v : Byte) (a : Answer) : AddressIn R ⟨.write r v, a⟩ :=
  fun _ h => Option.some.inj h ▸ hr

theorem CatchFree.traces {R : Byte → Prop} {α : Type} {m : Bus α} (h : CatchFree R m) : Traces (AddressIn R) m := by
  induction h with
  | ret a => exact traces_ret _ a
  | raise e => exact traces_raise _ e
  | andThen _ _ ihm ihg => exact traces_andThen ihm ihg
  | memRead hr => exact traces_memRead _ (addressIn_read hr)
  | memWrite hr v => exact traces_memWrite _ v (addressIn_write hr v)
  | setAddr a => exact traces_setAddr a fun _ _ => nofun
  | pause ms => exact traces_pause ms (fun _ => nofun) (fun _ => nofun)
  | writeDir w => exact traces_write _ (fun _ => rfl) (fun _ => rfl) (fun _ => rfl)
  | writeMirror m => exact traces_write _ (fun _ => rfl) (fun _ => rfl) (fun _ => rfl)
  | writeConstructed b => exact traces_write _ (fun _ => rfl) (fun _ => rfl) (fun _ => rfl)

theorem traces_writeOutput {R : Byte → Prop} {c : Config} {p : Pin} (holat : R (reg c .olat p.bank))
    (hgpio : R (reg c .gpio p.bank)) (dir : Word16) (level : Level) : Traces (AddressIn R) (writeOutput c dir p level) := by
  unfold writeOutput
  split
  · exact traces_raise _ _
  · have latch : CatchFree R (andThen (memRead (reg c .olat p.bank)) fun k => ret (some k)) :=
      .andThen (.memRead holat) fun _ => .ret _
    exact traces_andThen (traces_catchTransport latch.traces (traces_ret _ _)) fun _ =>
      traces_andThen (CatchFree.rmw hgpio _ _ _).traces fun _ => traces_ret _ _

theorem traces_readInt_mirrored {R : Byte → Prop} {c : Config} (hintf : ∀ bank, R (reg c .intf bank))
    (hintcap : ∀ bank, R (reg c .intcap bank)) (bank : Bank) : Traces (AddressIn R) (readInt c true bank) := by
  rw [readInt_mirrored]
  refine traces_andThen (CatchFree.memRead (hintf .A)).traces fun flags => ?_
  split
  · exact traces_andThen (traces_catchTransport (CatchFree.readIntReg (hintf .B) (hintcap .B)).traces (traces_ret _ _))
      fun _ => traces_ret _ _
  · exact traces_andThen (CatchFree.memRead (hintcap .A)).traces fun _ => traces_ret _ _

/-- Every command addresses its own registers. -/
theorem program_traces (s : State) (i : Instr) : Traces (AddressIn (MayAddress s i)) (program s i) := by
  rcases program_cases s i with h | ⟨pin, level, rfl⟩ | ⟨bank, rfl, hmirror⟩
  · exact h.traces
  · exact traces_writeOutput (mayAddress_reg (by simp [usedRegs]) _) (mayAddress_reg (by simp [usedRegs]) _) _ level
  · rw [program, hmirror]
    exact traces_readInt_mirrored (mayAddress_reg (by simp [usedRegs])) (mayAddress_reg (by simp [usedRegs])) bank

/-- Settles O53: a command that may not run adds no event, and the events of a program are addressed as it may. -/
theorem addressesOfEachCommand : Obligations.AddressesOfEachCommand := by
  intro i s t evs e r ht htrace he hr
  rcases exec_cases ht with rfl | rfl
  · have hnone : evs = [] := List.append_right_eq_self.1 htrace.symm
    simp [hnone] at he
  · obtain ⟨added, hadded, -, hevents, -⟩ := program_traces s i s
    rw [conclude_trace, hadded] at htrace
    rw [← List.append_cancel_left htrace] at he
    exact (hevents e he).1 r hr

/-! ### A failed transaction -/

/-- `failFits` for pseudocode some of whose failures are caught: one that comes after events of which `caught` does not hold is
the last event and was raised as Transport. -/
def uncaughtFits {α : Type} (caught : List Event → Bool) (e : Ended α) (evs : List Event) : Prop :=
  ∀ before x after, evs = before ++ x :: after → x.answer = .fail → caught before = false →
    after = [] ∧ e = .raised .transport

theorem failFits.uncaughtFits {α : Type} {e : Ended α} {evs : List Event} (h : failFits e evs)
    (caught : List Event → Bool) : uncaughtFits caught e evs := by
  intro before x after hevs hfail _
  rcases h with hnone | ⟨hended, last, front, rfl, -, hfront⟩
  · exact absurd hfail (hnone x (by simp [hevs]))
  · rcases after.eq_nil_or_concat with rfl | ⟨rest, y, rfl⟩
    · exact ⟨rfl, hended⟩
    · have hsplit : front ++ [last] = (before ++ x :: rest) ++ [y] := by simpa using hevs
      have hfront_eq : front = before ++ x :: rest := List.append_inj_left' hsplit rfl
      exact absurd hfail (hfront x (by simp [hfront_eq]))

/-- A first event that did not fail, or whose failure is caught, leaves the rest to be looked at after it. -/
theorem uncaughtFits_cons {α : Type} {caught : List Event → Bool} {e : Ended α} {x : Event} {evs : List Event}
    (hx : x.answer = .fail → caught [] = true) (h : uncaughtFits (fun before => caught (x :: before)) e evs) :
    uncaughtFits caught e (x :: evs) := by
  intro before y after hevs hfail hcaught
  cases before with
  | nil =>
    obtain ⟨rfl, -⟩ := List.cons.inj hevs
    simp [hx hfail] at hcaught
  | cons z before =>
    obtain ⟨rfl, hrest⟩ := List.cons.inj hevs
    exact h before y after hrest hfail hcaught

/-- Every failure the pseudocode meets ends it, but for those after events of which `caught` holds. -/
def FailsLastUnless {α : Type} (caught : List Event → Bool) (m : Bus α) : Prop :=
  ∀ s, ∃ evs, (m s).2.trace = s.trace ++ evs ∧ uncaughtFits caught (m s).1 evs

theorem FailsLast.unless {α : Type} {m : Bus α} (h : FailsLast m) (caught : List Event → Bool) :
    FailsLastUnless caught m := by
  intro s
  obtain ⟨evs, htrace, hfits⟩ := h s
  exact ⟨evs, htrace, hfits.uncaughtFits caught⟩

/-- Nothing is left to show of pseudocode all of whose failures are caught. -/
theorem IsPseudocode.failsLastUnless {α : Type} {m : Bus α} (h : IsPseudocode m) {caught : List Event → Bool}
    (hcaught : ∀ before, caught before = true) : FailsLastUnless caught m := by
  intro s
  obtain ⟨evs, htrace, -⟩ := h.traces s
  exact ⟨evs, htrace, fun before _ _ _ _ hc => by simp [hcaught before] at hc⟩

theorem CatchFree.failsLast {R : Byte → Prop} {α : Type} {m : Bus α} (h : CatchFree R m) : FailsLast m := by
  induction h with
  | ret a => exact failsLast_ret a
  | raise e => exact failsLast_raise e
  | andThen _ _ ihm ihg => exact failsLast_andThen ihm ihg
  | memRead _ => exact failsLast_memRead _
  | memWrite _ v => exact failsLast_command _
  | setAddr a => exact failsLast_command _
  | pause ms => exact failsLast_pause ms
  | writeDir w => exact failsLast_write _ fun _ => rfl
  | writeMirror m => exact failsLast_write _ fun _ => rfl
  | writeConstructed b => exact failsLast_write _ fun _ => rfl

/-- Pseudocode that goes on from one event. -/
theorem uncaughtFits_after_event {α : Type} {caught : List Event → Bool} {m : Bus α} {x : Event} (s : State)
    (hx : x.answer = .fail → caught [] = true) (h : FailsLastUnless (fun before => caught (x :: before)) m) :
    ∃ evs, (m (s.ran 1 [x])).2.trace = s.trace ++ evs ∧ uncaughtFits caught (m (s.ran 1 [x])).1 evs := by
  obtain ⟨evs, htrace, hfits⟩ := h (s.ran 1 [x])
  exact ⟨x :: evs, by simp [htrace], uncaughtFits_cons hx hfits⟩

/-- A read that is not caught, and the rest after its answer. -/
theorem failsLastUnless_memRead_andThen {β : Type} {caught : List Event → Bool} {r : Byte} {g : Byte → Bus β}
    (hg : ∀ v, FailsLastUnless (fun before => caught (readOk r v :: before)) (g v)) :
    FailsLastUnless caught (andThen (memRead r) g) := by
  intro s
  rcases memRead_cases r s with ⟨v, -, e⟩ | ⟨-, e⟩ | ⟨-, e⟩
  · rw [andThen_value _ _ _ _ _ e]
    exact uncaughtFits_after_event s nofun (hg v)
  · rw [andThen_raised _ _ _ _ _ e]
    exact ⟨[readFail r], rfl, failFits.uncaughtFits (.inr ⟨rfl, _, [], rfl, rfl, by simp⟩) caught⟩
  · rw [andThen_waiting _ _ _ _ e]
    exact ⟨_, rfl, failFits.uncaughtFits (.inl (by simp)) caught⟩

/-- Everything a read whose failure gives `none` can do: one event, and a value or no end. -/
theorem caughtRead_cases (r : Byte) (s : State) :
    (∃ k x, catchTransport (andThen (memRead r) fun v => ret (some v)) (ret none) s = (.value k, s.ran 1 [x])) ∨
    catchTransport (andThen (memRead r) fun v => ret (some v)) (ret none) s =
      (.waiting, s.ran 1 [⟨.read r, .unanswered⟩]) := by
  rcases memRead_cases r s with ⟨v, -, e⟩ | ⟨-, e⟩ | ⟨-, e⟩
  · exact .inl ⟨some v, readOk r v, catchTransport_value _ _ _ _ _ (andThen_value _ _ _ _ _ e)⟩
  · exact .inl ⟨none, readFail r, catchTransport_transport _ _ _ _ (andThen_raised _ _ _ _ _ e)⟩
  · exact .inr (by simp [catchTransport, andThen_waiting _ _ _ _ e])

/-- WRITE_OUTPUT's OLAT read is its first transaction, and the only one whose failure does not end it (R99). -/
theorem failsLastUnless_writeOutput (c : Config) (dir : Word16) (p : Pin) (level : Level) :
    FailsLastUnless List.isEmpty (writeOutput c dir p level) := by
  unfold writeOutput
  split
  · exact (failsLast_raise _).unless _
  · intro s
    rcases caughtRead_cases (reg c .olat p.bank) s with ⟨k, x, e⟩ | e
    · rw [andThen_value _ _ _ _ _ e]
      exact uncaughtFits_after_event s (fun _ => rfl)
        ((failsLast_andThen (failsLast_rmw _ _ _ k) fun _ => failsLast_ret _).unless _)
    · rw [andThen_waiting _ _ _ _ e]
      exact ⟨_, rfl, failFits.uncaughtFits (.inl (by simp)) _⟩

/-- READ_INT with mirror On: the failures that do not end it come after bank A's INTF read answered 0 (R119). -/
theorem failsLastUnless_readInt_mirrored (c : Config) (bank : Bank) :
    FailsLastUnless (fun before => decide (before.head? = some (readOk (reg c .intf .A) 0))) (readInt c true bank) := by
  rw [readInt_mirrored]
  refine failsLastUnless_memRead_andThen fun flags => ?_
  split
  next hzero =>
    have hbankB := IsPseudocode.catchTransport (IsPseudocode.readIntReg c .B) (.ret none)
    exact (IsPseudocode.andThen hbankB fun _ => .ret _).failsLastUnless fun before => by simp [hzero]
  next => exact (failsLast_andThen (failsLast_memRead _) fun _ => failsLast_ret _).unless _

/-- Every command ends with a failure it does not catch. -/
theorem program_failsLastUnless (s : State) (i : Instr) : FailsLastUnless (readCaught i s) (program s i) := by
  rcases program_cases s i with h | ⟨pin, level, rfl⟩ | ⟨bank, rfl, hmirror⟩
  · exact h.failsLast.unless _
  · exact failsLastUnless_writeOutput _ _ _ level
  · have hcaught : readCaught (.readInt bank) s =
        fun before => decide (before.head? = some (readOk (reg s.config .intf .A) 0)) := by
      funext before
      simp [readCaught, hmirror]
    rw [hcaught, program, hmirror]
    exact failsLastUnless_readInt_mirrored _ bank

/-- A command's program leaves the response port to its conclusion. -/
theorem keeps_responses_program (s : State) (i : Instr) : Keeps State.responses (program s i) :=
  keeps_program State.ran_responses State.waited_responses s i (fun _ _ _ => rfl) (fun _ _ _ => rfl) (fun _ _ _ => rfl)

/-- A command that ends by a Transport answers it, every other field of the response 0 (R65, R145, R147). -/
theorem conclude_transport_responses {x : Ended Response × State} (h : x.1 = .raised .transport) :
    (conclude x).responses = x.2.responses ++ [0x00000001] := by
  obtain ⟨_, s⟩ := x
  obtain rfl := h
  have hword : responseWord (errorResponse .transport) = 0x00000001 := by decide
  rw [conclude_raised, State.respond_responses, hword]

/-- Settles O51: a command that may not run adds no event, and a program ends with a failure it does not catch. -/
theorem failedTransactionEndsCommand : Obligations.FailedTransactionEndsCommand := by
  intro i s t before after e ht htrace hfail hcaught
  rcases exec_cases ht with rfl | rfl
  · simp at htrace
  · obtain ⟨evs, hevs, hfits⟩ := program_failsLastUnless s i s
    rw [conclude_trace, hevs] at htrace
    obtain ⟨hlast, hended⟩ := hfits before e after (List.append_cancel_left htrace) hfail hcaught
    exact ⟨hlast, by rw [conclude_transport_responses hended, keeps_responses_program s i s]⟩

end Sys2Proof.Machine
end

section
/-! The encoding of commands (30_encoding.md): the opcode map read both ways (R62), what the decoder does with a word (R63, R64),
the fields of a command word one by one (R61), the round trip between commands and words in both directions (R67), and the bits
that the decoder does not look at (R63). -/

namespace Sys2Proof

/-! ### The opcode map -/

theorem opcodeOfByte_eq_some_iff {b : Byte} {op : Opcode} : opcodeOfByte b = some op ↔ opcodeByte op = b :=
  ⟨opcodeByte_of_opcodeOfByte b op, fun h => h ▸ opcodeOfByte_opcodeByte op⟩

theorem opcodeOfByte_eq_none_iff {b : Byte} : opcodeOfByte b = none ↔ ∀ op, opcodeByte op ≠ b := by
  simp [Option.eq_none_iff_forall_ne_some, opcodeOfByte_eq_some_iff]

theorem opcodeByte_injective : Function.Injective opcodeByte := fun op op' h => by
  rw [← Option.some_inj, ← opcodeOfByte_opcodeByte op, h, opcodeOfByte_opcodeByte]

/-! ### What the decoder does -/

/-- A word whose OPC is in R62 is decoded by its must-be-zero bits. -/
theorem decode_of_listed {w : CommandWord} {op : Opcode} (hopc : opcodeByte op = opcField w) (c : Config) :
    decode c w =
      if w &&& mustBeZero c op = 0 then .command (operandsOf w op) else .illegal .mustBeZeroBitSet := by
  simp [decode, opcodeOfByte_eq_some_iff.2 hopc]

theorem decode_of_unlisted {w : CommandWord} (hopc : ∀ op, opcodeByte op ≠ opcField w) (c : Config) :
    decode c w = .illegal .unassignedOpcode := by
  simp [decode, opcodeOfByte_eq_none_iff.2 hopc]

/-- A word decodes to a command exactly when its OPC is listed and its must-be-zero bits are 0; the command is then the opcode's
with the operands in the word's fields. -/
theorem decode_eq_command_iff {c : Config} {w : CommandWord} {i : Instr} :
    decode c w = .command i ↔ ∃ op, opcodeByte op = opcField w ∧ w &&& mustBeZero c op = 0 ∧ operandsOf w op = i := by
  constructor
  · intro h
    rcases exists_or_forall_not fun op => opcodeByte op = opcField w with ⟨op, hopc⟩ | hopc
    · rw [decode_of_listed hopc] at h
      split at h
      next hzero => exact ⟨op, hopc, hzero, Decoded.command.inj h⟩
      next => cases h
    · rw [decode_of_unlisted hopc] at h
      cases h
  · rintro ⟨op, hopc, hzero, rfl⟩
    rw [decode_of_listed hopc, if_pos hzero]

/-- Settles O3: the two rejections of the decoder are the two reasons of R64, and a word's OPC names at most one opcode. -/
theorem illegalExactlyWhenUnlistedOrNonzero : Obligations.IllegalExactlyWhenUnlistedOrNonzero := by
  intro c w
  rcases exists_or_forall_not fun op => opcodeByte op = opcField w with ⟨op, hopc⟩ | hopc
  · have honly (op' : Opcode) : opcodeByte op' = opcField w ↔ op' = op := hopc ▸ opcodeByte_injective.eq_iff
    simp only [decode_of_listed hopc, honly, ne_eq, exists_eq_left]
    split
    next hzero => simp [hzero]
    next hnonzero => exact ⟨fun _ => .inr hnonzero, fun _ => ⟨_, rfl⟩⟩
  · simp [decode_of_unlisted hopc, hopc]

/-- Words of one opcode that agree in its must-be-zero bits and in its operands decode alike. -/
theorem decode_congr {w w' : CommandWord} {op : Opcode} (hopc : opcField w = opcodeByte op)
    (hopc' : opcField w' = opcodeByte op) {c : Config} (hmask : w' &&& mustBeZero c op = w &&& mustBeZero c op)
    (hoperands : operandsOf w' op = operandsOf w op) : decode c w' = decode c w := by
  rw [decode_of_listed hopc'.symm, decode_of_listed hopc.symm, hmask, hoperands]

/-! ### The one-bit encodings (00_scope.md R10) -/

@[simp] theorem modeOfBit_modeBit (m : Mode) : modeOfBit (modeBit m) = m := by cases m <;> rfl
@[simp] theorem levelOfBit_levelBit (l : Level) : levelOfBit (levelBit l) = l := by cases l <;> rfl
@[simp] theorem featureOfBit_featureBit (f : Feature) : featureOfBit (featureBit f) = f := by cases f <;> rfl
@[simp] theorem bankOfBit_bankBit (b : Bank) : bankOfBit (bankBit b) = b := by cases b <;> rfl
@[simp] theorem compareOfBit_compareBit (x : Compare) : compareOfBit (compareBit x) = x := by cases x <;> rfl

@[simp] theorem modeBit_modeOfBit (b : Bool) : modeBit (modeOfBit b) = b := by cases b <;> rfl
@[simp] theorem levelBit_levelOfBit (b : Bool) : levelBit (levelOfBit b) = b := by cases b <;> rfl
@[simp] theorem featureBit_featureOfBit (b : Bool) : featureBit (featureOfBit b) = b := by cases b <;> rfl
@[simp] theorem bankBit_bankOfBit (b : Bool) : bankBit (bankOfBit b) = b := by cases b <;> rfl
@[simp] theorem compareBit_compareOfBit (b : Bool) : compareBit (compareOfBit b) = b := by cases b <;> rfl

/-! ### The fields of a word -/

/-- The reserved bits 63:48 (R61). -/
def rsvField (w : CommandWord) : Word16 := w.extractLsb' 48 16

section

variable (opc : Byte) (pin : PinIndex) (f0 f1 f2 f3 : Bool) (a8 b8 : Byte) (w16 : Word16)

@[simp] theorem opcField_packCommand : opcField (packCommand opc pin f0 f1 f2 f3 a8 b8 w16) = opc := by
  simp only [fields_packCommand]

@[simp] theorem pinField_packCommand : pinField (packCommand opc pin f0 f1 f2 f3 a8 b8 w16) = pin := by
  simp only [fields_packCommand]

@[simp] theorem f0Field_packCommand : f0Field (packCommand opc pin f0 f1 f2 f3 a8 b8 w16) = f0 := by
  simp only [fields_packCommand]

@[simp] theorem f1Field_packCommand : f1Field (packCommand opc pin f0 f1 f2 f3 a8 b8 w16) = f1 := by
  simp only [fields_packCommand]

@[simp] theorem f2Field_packCommand : f2Field (packCommand opc pin f0 f1 f2 f3 a8 b8 w16) = f2 := by
  simp only [fields_packCommand]

@[simp] theorem f3Field_packCommand : f3Field (packCommand opc pin f0 f1 f2 f3 a8 b8 w16) = f3 := by
  simp only [fields_packCommand]

@[simp] theorem a8Field_packCommand : a8Field (packCommand opc pin f0 f1 f2 f3 a8 b8 w16) = a8 := by
  simp only [fields_packCommand]

@[simp] theorem b8Field_packCommand : b8Field (packCommand opc pin f0 f1 f2 f3 a8 b8 w16) = b8 := by
  simp only [fields_packCommand]

@[simp] theorem w16Field_packCommand : w16Field (packCommand opc pin f0 f1 f2 f3 a8 b8 w16) = w16 := by
  simp only [fields_packCommand]

@[simp] theorem rsvField_packCommand : rsvField (packCommand opc pin f0 f1 f2 f3 a8 b8 w16) = 0 := by
  unfold rsvField packCommand
  iterate 9 rw [BitVec.extractLsb'_append_eq_of_le (by decide)]
  exact BitVec.extractLsb'_zero

end

@[simp] theorem opcField_and (v w : CommandWord) : opcField (v &&& w) = opcField v &&& opcField w := BitVec.extractLsb'_and
@[simp] theorem pinField_and (v w : CommandWord) : pinField (v &&& w) = pinField v &&& pinField w := BitVec.extractLsb'_and
@[simp] theorem f0Field_and (v w : CommandWord) : f0Field (v &&& w) = (f0Field v && f0Field w) := BitVec.getLsbD_and
@[simp] theorem f1Field_and (v w : CommandWord) : f1Field (v &&& w) = (f1Field v && f1Field w) := BitVec.getLsbD_and
@[simp] theorem f2Field_and (v w : CommandWord) : f2Field (v &&& w) = (f2Field v && f2Field w) := BitVec.getLsbD_and
@[simp] theorem f3Field_and (v w : CommandWord) : f3Field (v &&& w) = (f3Field v && f3Field w) := BitVec.getLsbD_and
@[simp] theorem a8Field_and (v w : CommandWord) : a8Field (v &&& w) = a8Field v &&& a8Field w := BitVec.extractLsb'_and
@[simp] theorem b8Field_and (v w : CommandWord) : b8Field (v &&& w) = b8Field v &&& b8Field w := BitVec.extractLsb'_and
@[simp] theorem w16Field_and (v w : CommandWord) : w16Field (v &&& w) = w16Field v &&& w16Field w := BitVec.extractLsb'_and
@[simp] theorem rsvField_and (v w : CommandWord) : rsvField (v &&& w) = rsvField v &&& rsvField w := BitVec.extractLsb'_and

/-- Every bit of a word lies in one of its fields (R61). -/
theorem packMask_fields (w : CommandWord) :
    packMask (opcField w) (pinField w) (f0Field w) (f1Field w) (f2Field w) (f3Field w) (a8Field w) (b8Field w)
      (w16Field w) (rsvField w) = w := by
  have hbit (i : Nat) : BitVec.ofBool (w.getLsbD i) = w.extractLsb' i 1 := by
    rw [BitVec.getLsbD_eq_extractLsb']
    generalize w.extractLsb' i 1 = b
    revert b
    decide
  simp only [packMask, opcField, pinField, f0Field, f1Field, f2Field, f3Field, a8Field, b8Field, w16Field, rsvField, hbit]
  simp only [BitVec.extractLsb'_append_extractLsb'_eq_extractLsb']
  exact BitVec.extractLsb'_eq_self

/-- A word is determined by its fields. -/
theorem word_ext {v w : CommandWord} (hopc : opcField v = opcField w) (hpin : pinField v = pinField w)
    (h0 : f0Field v = f0Field w) (h1 : f1Field v = f1Field w) (h2 : f2Field v = f2Field w) (h3 : f3Field v = f3Field w)
    (ha8 : a8Field v = a8Field w) (hb8 : b8Field v = b8Field w) (hw16 : w16Field v = w16Field w)
    (hrsv : rsvField v = rsvField w) : v = w := by
  rw [← packMask_fields v, ← packMask_fields w, hopc, hpin, h0, h1, h2, h3, ha8, hb8, hw16, hrsv]

/-! ### From a command to its word and back -/

/-- The word of a well-formed command is legal for its opcode. -/
theorem encodesLegally (i : Instr) : Laws.EncodesLegally.Statement i := by
  cases i with
  | pinDecode index => exact Laws.EncodesLegally.pinDecode index
  | pinMode pin word => exact Laws.EncodesLegally.pinMode pin word
  | setBit byte index value => exact Laws.EncodesLegally.setBit byte index value
  | merge16 pin word byte => exact Laws.EncodesLegally.merge16 pin word byte
  | rmw r pin value known => exact Laws.EncodesLegally.rmw r pin value known
  | setDirection pin mode => exact Laws.EncodesLegally.setDirection pin mode
  | setPullUp pin level => exact Laws.EncodesLegally.setPullUp pin level
  | writeOutput pin level => exact Laws.EncodesLegally.writeOutput pin level
  | readInput pin => exact Laws.EncodesLegally.readInput pin
  | readCurrent pin => exact Laws.EncodesLegally.readCurrent pin
  | cfgSysInt mirror polarity => exact Laws.EncodesLegally.cfgSysInt mirror polarity
  | cfgPinInt pin enabled compare dv => exact Laws.EncodesLegally.cfgPinInt pin enabled compare dv
  | readIntReg bank => exact Laws.EncodesLegally.readIntReg bank
  | readInt bank => exact Laws.EncodesLegally.readInt bank
  | clearInt => exact Laws.EncodesLegally.clearInt
  | reset => exact Laws.EncodesLegally.reset
  | construct addr => exact Laws.EncodesLegally.construct addr

/-- The operands of a command are read back from its word. -/
theorem operandsOf_encode (i : Instr) : operandsOf (encode i) (opcodeOf i) = i := by
  cases i with
  | setBit byte index value =>
    have hindex : (0#1 ++ index : PinIndex).extractLsb' 0 3 = index := BitVec.extractLsb'_append_eq_right
    simp [encode, opcodeOf, operandsOf, hindex]
  | rmw r pin value known => cases known <;> simp [encode, opcodeOf, operandsOf]
  | cfgPinInt pin enabled compare dv => cases dv <;> simp [encode, opcodeOf, operandsOf]
  | _ => simp [encode, opcodeOf, operandsOf]

/-- Settles O1: a command's word carries its opcode and has its must-be-zero bits at 0, so it is decoded to the operands in its
fields, which are the command's. -/
theorem decodeOfEncodeIsIdentity : Obligations.DecodeOfEncodeIsIdentity := by
  intro c i hwf
  obtain ⟨hopc, hzero⟩ := encodesLegally i c hwf
  exact decode_eq_command_iff.2 ⟨opcodeOf i, hopc.symm, hzero, operandsOf_encode i⟩

/-! ### From a legal word to its command and back -/

/-- The index of SET_BIT is the low three bits of PIN, whose fourth bit is 0 (R63). -/
theorem zero_append_index {p : PinIndex} (h : p &&& 8 = 0) : 0#1 ++ p.extractLsb' 0 3 = p := by
  revert p
  decide

/-! A field under a mask of ones, in the form that simp gives the literal masks of R63. -/

@[simp] theorem nibble_and_mask (p : PinIndex) : p &&& 0xF#4 = p := BitVec.and_allOnes
@[simp] theorem byte_and_mask (b : Byte) : b &&& 0xFF#8 = b := BitVec.and_allOnes
@[simp] theorem word16_and_mask (w : Word16) : w &&& 0xFFFF#16 = w := BitVec.and_allOnes

/-- A word that is zero under a mask is so field by field. -/
theorem fields_of_masked {w m : CommandWord} (h : w &&& m = 0) :
    pinField w &&& m.extractLsb' 8 4 = 0 ∧ (f0Field w && m.getLsbD 12) = false ∧ (f1Field w && m.getLsbD 13) = false ∧
      (f2Field w && m.getLsbD 14) = false ∧ (f3Field w && m.getLsbD 15) = false ∧ a8Field w &&& m.extractLsb' 16 8 = 0 ∧
      b8Field w &&& m.extractLsb' 24 8 = 0 ∧ w16Field w &&& m.extractLsb' 32 16 = 0 ∧
      rsvField w &&& m.extractLsb' 48 16 = 0 :=
  ⟨(pinField_and w m).symm.trans (congrArg pinField h), (f0Field_and w m).symm.trans (congrArg f0Field h),
    (f1Field_and w m).symm.trans (congrArg f1Field h), (f2Field_and w m).symm.trans (congrArg f2Field h),
    (f3Field_and w m).symm.trans (congrArg f3Field h), (a8Field_and w m).symm.trans (congrArg a8Field h),
    (b8Field_and w m).symm.trans (congrArg b8Field h), (w16Field_and w m).symm.trans (congrArg w16Field h),
    (rsvField_and w m).symm.trans (congrArg rsvField h)⟩

/-- A word whose reserved bits are 0 is packed from its fields. -/
theorem packCommand_fields {w : CommandWord} (hrsv : rsvField w = 0) :
    packCommand (opcField w) (pinField w) (f0Field w) (f1Field w) (f2Field w) (f3Field w) (a8Field w) (b8Field w)
      (w16Field w) = w := by
  apply word_ext <;> simp [hrsv]

/-- The must-be-zero bits of CONSTRUCT: those of the device address, and every operand bit outside A8 (R63, R136). -/
theorem masked_construct {c : Config} {w : CommandWord} (h : w &&& mustBeZero c .construct = 0) :
    a8Field w &&& addrZeroBits c = 0 ∧ w &&& 0xFFFFFFFFFF00FF00 = 0 := by
  rw [mustBeZero, BitVec.and_or_distrib_left] at h
  obtain ⟨houter, haddr⟩ := BitVec.or_eq_zero_iff.1 h
  have ha8 : (0#40 ++ addrZeroBits c ++ 0#16).extractLsb' 16 8 = addrZeroBits c := by
    rw [BitVec.extractLsb'_append_eq_of_le (by decide)]
    exact BitVec.extractLsb'_append_eq_right
  obtain ⟨-, -, -, -, -, haddr, -⟩ := fields_of_masked haddr
  exact ⟨ha8 ▸ haddr, houter⟩

/-- The command of a legal word is well formed. -/
theorem wellFormed_operandsOf {c : Config} {op : Opcode} {w : CommandWord} (hzero : w &&& mustBeZero c op = 0) :
    wellFormed c (operandsOf w op) = true := by
  cases op with
  | construct =>
    obtain ⟨haddr, -⟩ := masked_construct hzero
    exact decide_eq_true ((addr_fits_iff c _).2 haddr)
  | _ => rfl

/-! The mask of a row is written out (`rw [mustBeZero]`) before its fields are taken, so that the kernel computes them from a
literal. -/

/-- The fields that are zero in a legal RMW word (R63). -/
theorem fields_of_legal_rmw {c : Config} {w : CommandWord} (hzero : w &&& mustBeZero c .rmw = 0) :
    f1Field w = false ∧ f3Field w = false ∧ w16Field w = 0 ∧ rsvField w = 0 := by
  rw [mustBeZero] at hzero
  simpa using fields_of_masked hzero

/-- The fields that are zero in a legal CFG_PIN_INT word (R63). -/
theorem fields_of_legal_cfgPinInt {c : Config} {w : CommandWord} (hzero : w &&& mustBeZero c .cfgPinInt = 0) :
    a8Field w = 0 ∧ b8Field w = 0 ∧ w16Field w = 0 ∧ rsvField w = 0 := by
  rw [mustBeZero] at hzero
  simpa using fields_of_masked hzero

/-- The command of a legal word is encoded in that word, where no optional value is absent. -/
theorem encode_operandsOf {c : Config} {op : Opcode} {w : CommandWord} (hopc : opcodeByte op = opcField w)
    (hzero : w &&& mustBeZero c op = 0) (hpresent : op = .rmw ∨ op = .cfgPinInt → f2Field w = true) :
    encode (operandsOf w op) = w := by
  cases op with
  | construct =>
    obtain ⟨-, houter⟩ := masked_construct hzero
    have hfields := fields_of_masked houter
    simp at hfields
    refine Eq.trans ?_ (packCommand_fields (by simp [hfields]))
    simp [encode, operandsOf, hfields, ← hopc, opcodeByte]
  | rmw =>
    obtain ⟨h1, h3, hw16, hrsv⟩ := fields_of_legal_rmw hzero
    refine Eq.trans ?_ (packCommand_fields hrsv)
    simp [encode, operandsOf, ← hopc, opcodeByte, h1, h3, hw16, hpresent]
  | cfgPinInt =>
    obtain ⟨ha8, hb8, hw16, hrsv⟩ := fields_of_legal_cfgPinInt hzero
    refine Eq.trans ?_ (packCommand_fields hrsv)
    simp [encode, operandsOf, ← hopc, opcodeByte, ha8, hb8, hw16, hpresent]
  | _ =>
    rw [mustBeZero] at hzero
    have hfields := fields_of_masked hzero
    simp at hfields
    refine Eq.trans ?_ (packCommand_fields (by simp [hfields]))
    simp [encode, operandsOf, hfields, ← hopc, opcodeByte, zero_append_index]

/-! ### The bits ignored where F2 = 0 -/

/-- Clearing B8 of a word whose reserved bits are 0. -/
theorem and_not_b8 {w : CommandWord} (hrsv : rsvField w = 0) :
    w &&& ~~~0x00000000FF000000#64 =
      packCommand (opcField w) (pinField w) (f0Field w) (f1Field w) (f2Field w) (f3Field w) (a8Field w) 0 (w16Field w) := by
  have hmask : ~~~0x00000000FF000000#64 = packMask 0xFF 0xF true true true true 0xFF 0 0xFFFF 0xFFFF := by decide
  conv_lhs => rw [← packCommand_fields hrsv, hmask, packCommand_and_packMask]
  simp

/-- Clearing F3 of a word whose reserved bits are 0. -/
theorem and_not_f3 {w : CommandWord} (hrsv : rsvField w = 0) :
    w &&& ~~~0x0000000000008000#64 =
      packCommand (opcField w) (pinField w) (f0Field w) (f1Field w) (f2Field w) false (a8Field w) (b8Field w)
        (w16Field w) := by
  have hmask : ~~~0x0000000000008000#64 = packMask 0xFF 0xF true true true false 0xFF 0xFF 0xFFFF 0xFFFF := by decide
  conv_lhs => rw [← packCommand_fields hrsv, hmask, packCommand_and_packMask]
  simp

theorem encode_rmw_absent {c : Config} {w : CommandWord} (hopc : opcodeByte .rmw = opcField w)
    (hzero : w &&& mustBeZero c .rmw = 0) (habsent : f2Field w = false) :
    encode (operandsOf w .rmw) = w &&& ~~~0x00000000FF000000#64 := by
  obtain ⟨h1, h3, hw16, hrsv⟩ := fields_of_legal_rmw hzero
  rw [and_not_b8 hrsv]
  simp [encode, operandsOf, ← hopc, opcodeByte, h1, h3, hw16, habsent]

theorem encode_cfgPinInt_absent {c : Config} {w : CommandWord} (hopc : opcodeByte .cfgPinInt = opcField w)
    (hzero : w &&& mustBeZero c .cfgPinInt = 0) (habsent : f2Field w = false) :
    encode (operandsOf w .cfgPinInt) = w &&& ~~~0x0000000000008000#64 := by
  obtain ⟨ha8, hb8, hw16, hrsv⟩ := fields_of_legal_cfgPinInt hzero
  rw [and_not_f3 hrsv]
  simp [encode, operandsOf, ← hopc, opcodeByte, ha8, hb8, hw16, habsent]

/-- Settles O2: a legal word is its command's encoding, but for the field of an absent value, which the encoder writes as 0. -/
theorem encodeOfDecodeClearsIgnoredBits : Obligations.EncodeOfDecodeClearsIgnoredBits := by
  intro c w i h
  obtain ⟨op, hopc, hzero, rfl⟩ := decode_eq_command_iff.1 h
  refine ⟨wellFormed_operandsOf hzero, ?_⟩
  cases op with
  | rmw =>
    cases hf2 : f2Field w with
    | true => simpa [operandsOf, hf2] using encode_operandsOf hopc hzero fun _ => hf2
    | false => simpa [operandsOf, hf2] using encode_rmw_absent hopc hzero hf2
  | cfgPinInt =>
    cases hf2 : f2Field w with
    | true => simpa [operandsOf, hf2] using encode_operandsOf hopc hzero fun _ => hf2
    | false => simpa [operandsOf, hf2] using encode_cfgPinInt_absent hopc hzero hf2
  | _ => exact encode_operandsOf hopc hzero (by simp)

/-- Words of one opcode with F2 = 0 decode alike when they agree under a mask that keeps OPC, F2, the must-be-zero bits and,
where F2 = 0, the operands. -/
theorem decode_eq_of_and_eq {c : Config} {op : Opcode} {v w mask : CommandWord} (h : v &&& mask = w &&& mask)
    (hkeepOpc : opcField mask = 0xFF) (hkeepF2 : f2Field mask = true)
    (hkeepZero : mask &&& mustBeZero c op = mustBeZero c op)
    (hkeepOperands : ∀ x, f2Field x = false → operandsOf (x &&& mask) op = operandsOf x op)
    (hopc : opcField w = opcodeByte op) (habsent : f2Field w = false) : decode c v = decode c w := by
  have hkept {α : Type} {f : CommandWord → α} (hf : ∀ x, f (x &&& mask) = f x) : f v = f w := by
    rw [← hf v, h, hf w]
  have hopc' : opcField v = opcField w := hkept fun x => by simp [hkeepOpc]
  have habsent' : f2Field v = f2Field w := hkept fun x => by simp [hkeepF2]
  refine decode_congr hopc (hopc'.trans hopc) ?_ ?_
  · exact hkept (f := (· &&& mustBeZero c op)) fun x => by rw [BitVec.and_assoc, hkeepZero]
  · rw [← hkeepOperands v (habsent'.trans habsent), h, hkeepOperands w habsent]

/-- What is put into bits that a mask clears does not show under it. -/
theorem and_mask_of_replaced {w mask x : CommandWord} (hx : x &&& mask = 0) :
    ((w &&& mask) ||| x) &&& mask = w &&& mask := by
  simp [BitVec.and_or_distrib_right, BitVec.and_assoc, hx]

/-- Clearing B8 keeps the other operands of RMW. -/
theorem operandsOf_rmw_and_not_b8 (x : CommandWord) (habsent : f2Field x = false) :
    operandsOf (x &&& ~~~0x00000000FF000000#64) .rmw = operandsOf x .rmw := by
  have hmask : pinField 0xFFFFFFFF00FFFFFF#64 = 0xF ∧ f0Field 0xFFFFFFFF00FFFFFF#64 = true ∧
      a8Field 0xFFFFFFFF00FFFFFF#64 = 0xFF := by decide
  simp [operandsOf, hmask, habsent]

/-- Clearing F3 keeps the other operands of CFG_PIN_INT. -/
theorem operandsOf_cfgPinInt_and_not_f3 (x : CommandWord) (habsent : f2Field x = false) :
    operandsOf (x &&& ~~~0x0000000000008000#64) .cfgPinInt = operandsOf x .cfgPinInt := by
  have hmask : pinField 0xFFFFFFFFFFFF7FFF#64 = 0xF ∧ f0Field 0xFFFFFFFFFFFF7FFF#64 = true ∧
      f1Field 0xFFFFFFFFFFFF7FFF#64 = true := by decide
  simp [operandsOf, hmask, habsent]

/-- Settles O22: the replaced bits are no must-be-zero bits, and with F2 = 0 no operand. -/
theorem absentOptionValueIgnored : Obligations.AbsentOptionValueIgnored := by
  intro c w habsent
  refine ⟨fun hopc b => ?_, fun hopc v => ?_⟩
  · have hb : (b.setWidth 64 <<< 24) &&& ~~~0x00000000FF000000#64 = 0 := by
      revert b
      decide
    exact decode_eq_of_and_eq (and_mask_of_replaced hb) (by decide) (by decide) (by rw [mustBeZero]; decide)
      operandsOf_rmw_and_not_b8 hopc habsent
  · have hv : ((BitVec.ofBool v).setWidth 64 <<< 15) &&& ~~~0x0000000000008000#64 = 0 := by
      revert v
      decide
    exact decode_eq_of_and_eq (and_mask_of_replaced hv) (by decide) (by decide) (by rw [mustBeZero]; decide)
      operandsOf_cfgPinInt_and_not_f3 hopc habsent

/-- Settles O4: the words are literals, decoded at the default parameters. -/
theorem sampleWordsDecode : Obligations.SampleWordsDecode := by
  unfold Obligations.SampleWordsDecode
  decide

end Sys2Proof
end

section
/-! Commands at the block's ports (30_encoding.md): what a step does with the word it accepts (R60, R64), the fields of a response
word (R65), one response per command (R60, R147, R173), and the assembler's lines (R68). -/

namespace Sys2Proof.Machine

/-! ### A step of an idle block -/

/-- Settles O7: such a word is refused by the decoder, and the response word of an illegal word is 0x4. -/
theorem illegalWordAnsweredIllegal : Obligations.IllegalWordAnsweredIllegal := by
  intro s w rest hbusy hcommands hillegal
  obtain ⟨why, hdecode⟩ := (illegalExactlyWhenUnlistedOrNonzero s.config w).2 hillegal
  have hword : responseWord illegalResponse = 0x00000004 := by decide
  rw [step_illegal hbusy hcommands hdecode, State.respond, hword, hbusy]

/-- Settles O6: what a step does with a word that decodes to a command. -/
theorem stepRunsDecodedCommand : Obligations.StepRunsDecodedCommand :=
  fun _ _ _ _ hbusy hcommands hdecode => step_command hbusy hcommands hdecode

/-! ### The response word -/

theorem responseWord_present (r : Response) : (responseWord r).getLsbD 4 = r.present := by
  simp only [responseWord, BitVec.getLsbD_append]
  simp

theorem responseWord_pin (r : Response) : (responseWord r).extractLsb' 8 4 = r.pin := by
  unfold responseWord
  iterate 3 rw [BitVec.extractLsb'_append_eq_of_le (by decide)]
  exact BitVec.extractLsb'_append_eq_right

theorem responseWord_bit (r : Response) : (responseWord r).getLsbD 12 = r.bit := by
  simp only [responseWord, BitVec.getLsbD_append]
  simp

theorem responseWord_data (r : Response) : (responseWord r).extractLsb' 16 16 = r.data := by
  unfold responseWord
  iterate 6 rw [BitVec.extractLsb'_append_eq_of_le (by decide)]
  exact BitVec.extractLsb'_eq_self

/-- Settles O5: the fields of a response word one by one. -/
theorem responseWordLayout : Obligations.ResponseWordLayout := by
  refine ⟨fun r => ?_, rfl, rfl, rfl, rfl, rfl, rfl⟩
  obtain ⟨hlow, hhigh⟩ := reservedFields_responseWord r
  exact ⟨statusField_responseWord r, responseWord_present r, hlow, responseWord_pin r, responseWord_bit r, hhigh,
    responseWord_data r⟩

/-! ### One response per command -/

/-- A command that ends gives one response. -/
theorem conclude_responds {x : Ended Response × State} (h : x.1 ≠ .waiting) :
    (conclude x).busy = false ∧ ∃ r, (conclude x).responses = x.2.responses ++ [r] := by
  obtain ⟨ended, t⟩ := x
  cases ended with
  | value r => exact ⟨rfl, _, rfl⟩
  | raised e => exact ⟨rfl, _, rfl⟩
  | waiting => exact absurd rfl h

/-- A command that waits gives none (R173). -/
theorem conclude_waits {x : Ended Response × State} (h : x.1 = .waiting) :
    (conclude x).busy = true ∧ (conclude x).responses = x.2.responses := by
  obtain ⟨_, t⟩ := x
  obtain rfl := h
  exact ⟨rfl, rfl⟩

/-- Settles O50: a command that may not run adds no event and answers at once; the events of a program fit its end, and its
conclusion adds the one response or none. -/
theorem oneResponsePerCommand : Obligations.OneResponsePerCommand := by
  intro i s
  by_cases hruns : runsUnconstructed i = true ∨ s.constructed = true
  · obtain ⟨evs, htrace, ⟨horacle, htimer⟩, -, hfits⟩ := (IsPseudocode.program s i).traces s
    obtain ⟨ctrace, coracle, -, -, -, -, -, ctimer⟩ := conclude_keeps (program s i s)
    refine ⟨_, evs, exec_of_runs i s hruns, ctrace.trans htrace, coracle.trans horacle, ctimer.trans htimer, ?_⟩
    rw [← keeps_responses_program s i s]
    rcases hfits with ⟨hended, hanswered⟩ | ⟨hwaiting, hlast⟩
    · obtain ⟨hbusy, hresponse⟩ := conclude_responds hended
      exact .inl ⟨hbusy, hanswered, hresponse⟩
    · obtain ⟨hbusy, hresponses⟩ := conclude_waits hwaiting
      exact .inr ⟨hbusy, hresponses, hlast⟩
  · refine ⟨s.respond notConstructedResponse, [], by rw [exec_eq_program, if_neg hruns], by simp, rfl, rfl, ?_⟩
    exact .inl ⟨rfl, by simp, _, rfl⟩

/-! ### The assembler -/

theorem assemble_disassemble (i : Instr) : assemble (disassemble i) = some i := by
  cases i with
  | rmw r pin value known => cases known <;> rfl
  | cfgPinInt pin enabled compare dv => cases dv <;> rfl
  | _ => rfl

/-- Settles O57: every line form is read back as its command; the three lines of the spec are literals. -/
theorem assembleOfDisassemble : Obligations.AssembleOfDisassemble :=
  ⟨assemble_disassemble, by decide, by decide, by decide⟩

end Sys2Proof.Machine
end

section
/-! The commands of the codec (40_codec.md): each is a pure function of its operands answered at once (R80, R82 to R84), and the laws
of those functions (R81, R85). -/

namespace Sys2Proof.Machine

/-- A command whose program only gives a response changes nothing but the response. -/
theorem exec_of_program_eq_ret {i : Instr} {s : State} {r : Response} (hruns : runsUnconstructed i = true)
    (hprogram : program s i = ret r) : exec i s = .next ((s.ran 0 []).respond r) := by
  rw [exec_of_runs i s (.inl hruns), hprogram, ret_apply, conclude_value, State.ran_zero]

/-! ### Pins -/

theorem pinOf_bank (i : PinIndex) : (pinOf defaultGeometry i).bank = if i.toNat < 8 then .A else .B := rfl

theorem pinOf_bank_eq_A_iff (i : PinIndex) : (pinOf defaultGeometry i).bank = .A ↔ i.toNat < 8 := by
  rw [pinOf_bank]
  split <;> simp [*]

/-- `high_half` equals `bank` (R80). -/
theorem pinOf_highHalf_eq_bankBit (g : Geometry) (i : PinIndex) : (pinOf g i).highHalf = bankBit (pinOf g i).bank := by
  by_cases h : i.toNat < g.bankBits <;> simp [pinOf, bankBit, h]

/-- The bank and the bit give the index back: the map of R80 is one-to-one. -/
theorem pinAt_pinOf (i : PinIndex) :
    pinAt defaultGeometry (pinOf defaultGeometry i).bank (pinOf defaultGeometry i).bit = i := by
  revert i
  decide

/-- DATA of PIN_DECODE: in bank B the bits 4 (bank) and 3 (high_half) are set. -/
theorem pinData_pinOf (i : PinIndex) :
    pinData (pinOf defaultGeometry i) = BitVec.ofNat 16 (if i.toNat < 8 then i.toNat else 24 + (i.toNat - 8)) := by
  revert i
  decide

theorem pinSame_iff (p q : Pin) : pinSame p q = true ↔ p.bank = q.bank ∧ p.bit = q.bit := by
  simp [pinSame]

theorem pinSame_pinOf_iff (i j : PinIndex) :
    pinSame (pinOf defaultGeometry i) (pinOf defaultGeometry j) = true ↔ i = j := by
  rw [pinSame_iff]
  refine ⟨fun ⟨hbank, hbit⟩ => ?_, fun h => h ▸ ⟨rfl, rfl⟩⟩
  rw [← pinAt_pinOf i, hbank, hbit, pinAt_pinOf]

/-- The order of R81: by bank, then by bit. -/
theorem pinBefore_iff (p q : Pin) :
    pinBefore p q = true ↔ (p.bank = .A ∧ q.bank = .B) ∨ (p.bank = q.bank ∧ p.bit.toNat < q.bit.toNat) := by
  cases hp : p.bank <;> cases hq : q.bank <;> simp [pinBefore, hp, hq]

theorem pinBefore_pinOf_iff (i j : PinIndex) :
    pinBefore (pinOf defaultGeometry i) (pinOf defaultGeometry j) = true ↔ i.toNat < j.toNat := by
  rw [pinBefore_iff, pinOf_bit, pinOf_bit, pinOf_bank, pinOf_bank]
  have hi := i.isLt
  have hj := j.isLt
  split <;> split <;> simp <;> omega

/-! ### PIN_DECODE -/

/-- Settles O13: an index below 16 is the index of a pin, whose DATA is known. -/
theorem pinDecodeResult : Obligations.PinDecodeResult := by
  intro index s hgeometry
  refine exec_of_program_eq_ret rfl ?_
  rw [program, hgeometry, pinExists_default]
  by_cases hlt : index.toNat < 16
  · have hpin : index.extractLsb' 0 4 = BitVec.ofNat 4 index.toNat := rfl
    have htoNat : (BitVec.ofNat 4 index.toNat).toNat = index.toNat := by
      rw [BitVec.toNat_ofNat, Nat.mod_eq_of_lt hlt]
    rw [hpin, pinData_pinOf, htoNat]
    by_cases hA : index.toNat < 8 <;> simp [hlt, hA]
  · simp [hlt, show ¬ index.toNat < 8 by omega]

theorem exec_pinDecode_of_no_pin {index : Byte} {s : State} (hgeometry : s.config.geometry = defaultGeometry)
    (hindex : 16 ≤ index.toNat) : exec (.pinDecode index) s = .next (s.respond { }) := by
  rw [pinDecodeResult index s hgeometry, if_neg (by omega), if_neg (by omega), State.ran_zero]

/-! ### PIN_MODE -/

theorem modeOf_pinOf (g : Geometry) (i : PinIndex) (w : Word16) : modeOf (pinOf g i) w = modeOfBit (w.getLsbD i.toNat) := rfl

/-- Settles O14: BIT is the mode of the pin in the operand word. -/
theorem pinModeResult : Obligations.PinModeResult := by
  intro pin word s
  refine exec_of_program_eq_ret rfl ?_
  rw [program, modeOf_pinOf, modeBit_modeOfBit]

/-! ### SET_BIT -/

theorem setBit8_setBit8 (b : Byte) (i : BitIndex) (v : Bool) : setBit8 (setBit8 b i v) i v = setBit8 b i v := by
  refine BitVec.eq_of_getLsbD_eq fun j _ => ?_
  rw [getLsbD_setBit8 (setBit8 b i v)]
  split
  · next hj => rw [getLsbD_setBit8, if_pos hj]
  · rfl

/-- Settles O15: the byte is that of `setbit8`, known bit by bit. -/
theorem setBitResult : Obligations.SetBitResult := by
  intro byte index value s
  refine ⟨setBit8 byte index value, exec_of_program_eq_ret rfl ?_, getLsbD_setBit8 byte index value⟩
  rw [program, zext16_eq_setWidth]

/-! ### MERGE16 -/

/-- The byte goes into the half of the pin's bank (R84). -/
theorem merge16_pinOf (i : PinIndex) (w : Word16) (b : Byte) :
    merge16 defaultGeometry (pinOf defaultGeometry i) w b =
      if (pinOf defaultGeometry i).bank = .A then w.extractLsb' 8 8 ++ b else b ++ w.extractLsb' 0 8 := by
  rw [merge16_default, pinOf_highHalf_eq_bankBit]
  cases (pinOf defaultGeometry i).bank <;> rfl

/-- Settles O16: the word is that of `merge16`, known bit by bit. -/
theorem merge16Result : Obligations.Merge16Result := by
  intro pin word byte s hgeometry
  refine ⟨merge16 defaultGeometry (pinOf defaultGeometry pin) word byte, exec_of_program_eq_ret rfl ?_, fun j hj => ?_⟩
  · rw [program, hgeometry]
  · rw [getLsbD_merge16, getLsbD_merge16, pinOf_highHalf]
    by_cases hA : pin.toNat < 8
    · simp [hj, hA]
    · simp [hj, hA, Nat.le_of_not_lt hA]

/-- The merged word holds the pin's mode in the byte's bit (R85). -/
theorem modeOf_merge16 (i : PinIndex) (w : Word16) (b : Byte) :
    modeOf (pinOf defaultGeometry i) (merge16 defaultGeometry (pinOf defaultGeometry i) w b) =
      modeOfBit (b.getLsbD (pinOf defaultGeometry i).bit.toNat) := by
  rw [modeOf_pinOf, getLsbD_merge16, pinOf_highHalf, pinOf_bit]
  by_cases hA : i.toNat < 8
  · simp [hA, Nat.mod_eq_of_lt hA, Nat.not_le_of_lt hA]
  · have hmod : i.toNat % 8 = i.toNat - 8 := by have := i.isLt; omega
    simp [hA, Nat.le_of_not_lt hA, hmod]

/-! ### The laws -/

/-- Settles O17, law by law. -/
theorem codecLaws : Obligations.CodecLaws := by
  rintro _ rfl
  refine ⟨fun i => ⟨pinOf_bank_eq_A_iff i, pinOf_bit i⟩, fun _ _ => exec_pinDecode_of_no_pin, fun i w b hA => ?_,
    fun i w b hB => ?_, fun b i v => ⟨setBit8_setBit8 b i v, ?_, fun j hj => ?_⟩, modeOf_merge16⟩
  · rw [merge16_pinOf, if_pos hA]
    exact ⟨BitVec.extractLsb'_append_eq_right, BitVec.extractLsb'_append_eq_left⟩
  · rw [merge16_pinOf, if_neg (by simp [hB])]
    exact ⟨BitVec.extractLsb'_append_eq_left, BitVec.extractLsb'_append_eq_right⟩
  · rw [getLsbD_setBit8, if_pos rfl]
  · rw [getLsbD_setBit8, if_neg hj]

/-- Settles O18: the order is that of the banks, then of the bits. -/
theorem pinIdentityAndOrder : Obligations.PinIdentityAndOrder :=
  fun i j => ⟨pinSame_pinOf_iff i j, pinBefore_pinOf_iff i j⟩

end Sys2Proof.Machine
end

section
/-! The bit-field mutator and pin access (41_rmw.md): what the read-modify-write of R95 does for each answer of the bus, the six
commands built on it or on one GPIO read (R96 to R101), and the truth table of the mode guards (R102). -/

namespace Sys2Proof.Machine

/-! ### A constructed block -/

/-- A command whose program completes answers the program's response. -/
theorem exec_of_value {i : Instr} {s t : State} {r : Response} (hconstructed : s.constructed = true)
    (hprogram : program s i s = (.value r, t)) : exec i s = .next (t.respond r) := by
  rw [exec_of_runs i s (.inr hconstructed), hprogram, conclude_value]

/-- A command whose program raises Transport answers TRANSPORT (R147). -/
theorem exec_of_transport {i : Instr} {s t : State} (hconstructed : s.constructed = true)
    (hprogram : program s i s = (.raised .transport, t)) : exec i s = .next (t.respond { status := .transport }) := by
  rw [exec_of_runs i s (.inr hconstructed), hprogram, conclude_raised, errorResponse]

/-- A command whose guard rejects the pin changes nothing but the response (R102, R146). -/
theorem exec_of_wrongMode {i : Instr} {s : State} {pin : PinIndex} (hconstructed : s.constructed = true)
    (hprogram : program s i = raise (.wrongMode pin)) :
    exec i s = .next (s.respond { status := .wrongMode, pin := pin }) := by
  rw [exec_of_runs i s (.inr hconstructed), hprogram, raise_apply, conclude_raised, errorResponse]

theorem State.ran_peek (s : State) (n k : Nat) (evs : List Event) :
    (s.ran n evs).oracle.peek k = s.oracle.peek (n + k) := by
  rw [State.ran_oracle, Oracle.peek_skip]

/-! ### The mutator (R95) -/

/-- With a known current the mutator is one write. -/
theorem rmw_some (r : Byte) (p : Pin) (v : Bool) (k : Byte) :
    rmw r p v (some k) = andThen (memWrite r (setBit8 k p.bit v)) fun _ => ret (setBit8 k p.bit v) := rfl

/-- Without a known current the mutator reads it first. -/
theorem rmw_none (r : Byte) (p : Pin) (v : Bool) :
    rmw r p v none = andThen (memRead r) fun cur => rmw r p v (some cur) := rfl

theorem rmw_some_ok (r : Byte) (p : Pin) (v : Bool) (k : Byte) (s : State) (hwrite : isOk (s.oracle.peek 0) = true) :
    rmw r p v (some k) s = (.value (setBit8 k p.bit v), s.ran 1 [writeOk r (setBit8 k p.bit v)]) := by
  rw [rmw_some, andThen_value _ _ _ _ _ (memWrite_ok _ _ s hwrite), ret_apply]

theorem rmw_some_fail (r : Byte) (p : Pin) (v : Bool) (k : Byte) (s : State) (hwrite : s.oracle.peek 0 = .fail) :
    rmw r p v (some k) s = (.raised .transport, s.ran 1 [writeFail r (setBit8 k p.bit v)]) := by
  rw [rmw_some, andThen_raised _ _ _ _ _ (memWrite_fail _ _ s hwrite)]

theorem rmw_none_readFail (r : Byte) (p : Pin) (v : Bool) (s : State) (hread : s.oracle.peek 0 = .fail) :
    rmw r p v none s = (.raised .transport, s.ran 1 [readFail r]) := by
  rw [rmw_none, andThen_raised _ _ _ _ _ (memRead_fail r s hread)]

/-- After its read the mutator goes on as with a known current. -/
theorem rmw_none_readOk (r : Byte) (p : Pin) (v : Bool) (cur : Byte) (s : State) (hread : s.oracle.peek 0 = .ok cur) :
    rmw r p v none s = rmw r p v (some cur) (s.ran 1 [readOk r cur]) := by
  rw [rmw_none, andThen_value _ _ _ _ _ (memRead_ok r cur s hread)]

theorem rmw_none_ok (r : Byte) (p : Pin) (v : Bool) (cur : Byte) (s : State) (hread : s.oracle.peek 0 = .ok cur)
    (hwrite : isOk (s.oracle.peek 1) = true) :
    rmw r p v none s =
      (.value (setBit8 cur p.bit v), s.ran 2 [readOk r cur, writeOk r (setBit8 cur p.bit v)]) := by
  rw [rmw_none_readOk r p v cur s hread, rmw_some_ok _ _ _ _ _ (by rwa [State.ran_peek]), State.ran_ran]
  rfl

theorem rmw_none_writeFail (r : Byte) (p : Pin) (v : Bool) (cur : Byte) (s : State) (hread : s.oracle.peek 0 = .ok cur)
    (hwrite : s.oracle.peek 1 = .fail) :
    rmw r p v none s = (.raised .transport, s.ran 2 [readOk r cur, writeFail r (setBit8 cur p.bit v)]) := by
  rw [rmw_none_readOk r p v cur s hread, rmw_some_fail _ _ _ _ _ (by rwa [State.ran_peek]), State.ran_ran]
  rfl

/-- Settles O19: the two answers a write can end with. -/
theorem mutatorWithKnownCurrent : Obligations.MutatorWithKnownCurrent :=
  fun r p v k s => ⟨rmw_some_ok r p v k s, rmw_some_fail r p v k s⟩

/-- Settles O20: the read fails, or what follows it is the mutator with a known current. -/
theorem mutatorWithoutKnownCurrent : Obligations.MutatorWithoutKnownCurrent :=
  fun r p v s => ⟨rmw_none_readFail r p v s, fun cur => rmw_none_ok r p v cur s, fun cur => rmw_none_writeFail r p v cur s⟩

/-! ### RMW (R96) -/

/-- Settles O21: RMW answers the byte the mutator gives. -/
theorem rmwCompletes : Obligations.RmwCompletes := by
  rintro r pin v _ s hconstructed rfl
  refine ⟨fun k hwrite => exec_of_value hconstructed ?_, fun cur hread hwrite => exec_of_value hconstructed ?_⟩
  · rw [program, andThen_value _ _ _ _ _ (rmw_some_ok _ _ _ k s hwrite), ret_apply, zext16_eq_setWidth]
  · rw [program, andThen_value _ _ _ _ _ (rmw_none_ok _ _ _ cur s hread hwrite), ret_apply, zext16_eq_setWidth]

/-! ### SET_DIRECTION (R97) -/

/-- The byte of `dir` that belongs to the pin's bank (R97). -/
theorem bankByte_pinOf (i : PinIndex) (w : Word16) :
    bankByte defaultGeometry (pinOf defaultGeometry i) w =
      if i.toNat < 8 then w.extractLsb' 0 8 else w.extractLsb' 8 8 := by
  rw [bankByte_default, pinOf_highHalf]
  by_cases hA : i.toNat < 8
  · simp [hA]
  · simp [hA, Nat.le_of_not_lt hA]

/-- The merged word by the pin's index (R84). -/
theorem merge16_pinOf_index (i : PinIndex) (w : Word16) (b : Byte) :
    merge16 defaultGeometry (pinOf defaultGeometry i) w b =
      if i.toNat < 8 then w.extractLsb' 8 8 ++ b else b ++ w.extractLsb' 0 8 := by
  simp only [merge16_pinOf, pinOf_bank_eq_A_iff]

/-- The known current of SET_DIRECTION: the byte of `dir` with DIR_USE_CACHE, none without. -/
def knownIodir (c : Config) (dir : Word16) (p : Pin) : Option Byte :=
  if c.dirUseCache then some (bankByte c.geometry p dir) else none

theorem knownIodir_uncached {c : Config} (hcache : c.dirUseCache = false) (dir : Word16) (p : Pin) :
    knownIodir c dir p = none := by
  simp [knownIodir, hcache]

theorem knownIodir_cached {c : Config} (hgeometry : c.geometry = defaultGeometry) (hcache : c.dirUseCache = true)
    (dir : Word16) (pin : PinIndex) :
    knownIodir c dir (pinOf defaultGeometry pin) =
      some (if pin.toNat < 8 then dir.extractLsb' 0 8 else dir.extractLsb' 8 8) := by
  rw [knownIodir, if_pos hcache, hgeometry, bankByte_pinOf]

/-- SET_DIRECTION after its mutation: the byte written replaces the byte of the pin's bank in `dir`. -/
theorem setDirection_of_value {c : Config} {dir d : Word16} {pin : PinIndex} {mode : Mode} {new : Byte} {s t : State}
    (hgeometry : c.geometry = defaultGeometry)
    (hrmw : rmw (reg c .iodir (pinOf defaultGeometry pin).bank) (pinOf defaultGeometry pin) (modeBit mode)
      (knownIodir c dir (pinOf defaultGeometry pin)) s = (.value new, t))
    (hd : d = if pin.toNat < 8 then dir.extractLsb' 8 8 ++ new else new ++ dir.extractLsb' 0 8) :
    setDirection c dir (pinOf defaultGeometry pin) mode s = (.value { data := d }, { t with dir := some d }) := by
  refine (andThen_value _ _ _ _ _ hrmw).trans ?_
  rw [hgeometry, dirWord_default, merge16_pinOf_index, ← hd]
  rfl

/-- SET_DIRECTION whose mutation failed: `dir` is not written. -/
theorem setDirection_of_raised {c : Config} {dir : Word16} {p : Pin} {mode : Mode} {e : Error} {s t : State}
    (hrmw : rmw (reg c .iodir p.bank) p (modeBit mode) (knownIodir c dir p) s = (.raised e, t)) :
    setDirection c dir p mode s = (.raised e, t) :=
  andThen_raised _ _ _ _ _ hrmw

/-- Settles O23: with either setting of DIR_USE_CACHE the mutator gives the byte written. -/
theorem setDirectionCompletes : Obligations.SetDirectionCompletes := by
  rintro pin mode cur _ d _ s hconstructed hgeometry rfl rfl hd
  refine ⟨fun hcache hread hwrite => exec_of_value hconstructed ?_,
    fun hcache hcur hwrite => exec_of_value hconstructed ?_⟩
  · rw [program, hgeometry]
    refine setDirection_of_value hgeometry ?_ hd
    rw [knownIodir_uncached hcache, rmw_none_ok _ _ _ cur s hread hwrite]
  · rw [program, hgeometry]
    refine setDirection_of_value hgeometry ?_ hd
    rw [knownIodir_cached hgeometry hcache, ← hcur, rmw_some_ok _ _ _ cur s hwrite]

/-- Settles O24: with either setting of DIR_USE_CACHE the mutator fails, before `dir` is written. -/
theorem setDirectionFailureKeepsDir : Obligations.SetDirectionFailureKeepsDir := by
  rintro pin mode cur _ _ s hconstructed hgeometry rfl rfl
  refine ⟨fun hcache hread => exec_of_transport hconstructed ?_,
    fun hcache hread hwrite => exec_of_transport hconstructed ?_,
    fun hcache hcur hwrite => exec_of_transport hconstructed ?_⟩ <;>
    rw [program, hgeometry] <;> refine setDirection_of_raised ?_
  · rw [knownIodir_uncached hcache, rmw_none_readFail _ _ _ s hread]
  · rw [knownIodir_uncached hcache, rmw_none_writeFail _ _ _ cur s hread hwrite]
  · rw [knownIodir_cached hgeometry hcache, ← hcur, rmw_some_fail _ _ _ cur s hwrite]

/-! ### SET_PULL_UP (R98) -/

/-- A byte merged into the zero word stands in the half of the pin's bank. -/
theorem merge16_zero_pinOf (i : PinIndex) (b : Byte) :
    merge16 defaultGeometry (pinOf defaultGeometry i) 0 b =
      if i.toNat < 8 then b.setWidth 16 else b.setWidth 16 <<< 8 := by
  rw [merge16_pinOf_index, ← zext16_eq_setWidth]
  split
  · rfl
  · revert b
    decide

/-- Settles O25: SET_PULL_UP answers the byte the mutator gives, merged into the zero word. -/
theorem setPullUpCompletes : Obligations.SetPullUpCompletes := by
  rintro pin level cur _ s hconstructed hgeometry rfl hread hwrite
  refine exec_of_value hconstructed ?_
  rw [program, setPullUp, andThen_value _ _ _ _ _ (rmw_none_ok _ _ _ cur s hread hwrite), ret_apply, hgeometry,
    merge16_zero_pinOf]

/-! ### WRITE_OUTPUT (R99) -/

/-- The OLAT read of WRITE_OUTPUT: its byte, or none where it fails. -/
def readLatch (r : Byte) : Bus (Option Byte) :=
  catchTransport (andThen (memRead r) fun k => ret (some k)) (ret none)

theorem readLatch_ok (r k : Byte) (s : State) (hread : s.oracle.peek 0 = .ok k) :
    readLatch r s = (.value (some k), s.ran 1 [readOk r k]) :=
  catchTransport_value _ _ _ _ _ (andThen_value _ _ _ _ _ (memRead_ok r k s hread))

theorem readLatch_fail (r : Byte) (s : State) (hread : s.oracle.peek 0 = .fail) :
    readLatch r s = (.value none, s.ran 1 [readFail r]) :=
  catchTransport_transport _ _ _ _ (andThen_raised _ _ _ _ _ (memRead_fail r s hread))

theorem writeOutput_output {c : Config} {dir : Word16} {p : Pin} (level : Level) (hmode : modeOf p dir = .output) :
    writeOutput c dir p level = raise (.wrongMode p.index) := by
  rw [writeOutput, hmode]

theorem writeOutput_input {c : Config} {dir : Word16} {p : Pin} (level : Level) (hmode : modeOf p dir = .input) :
    writeOutput c dir p level = andThen (readLatch (reg c .olat p.bank)) fun kc =>
      andThen (rmw (reg c .gpio p.bank) p (levelBit level) kc) fun new => ret { data := zext16 new } := by
  rw [writeOutput, hmode]
  rfl

/-- WRITE_OUTPUT for an Input pin whose GPIO mutation completes. -/
theorem writeOutput_of_value {c : Config} {dir : Word16} {p : Pin} {level : Level} {kc : Option Byte} {new : Byte}
    {s t u : State} (hmode : modeOf p dir = .input) (hlatch : readLatch (reg c .olat p.bank) s = (.value kc, t))
    (hrmw : rmw (reg c .gpio p.bank) p (levelBit level) kc t = (.value new, u)) :
    writeOutput c dir p level s = (.value { data := new.setWidth 16 }, u) := by
  rw [writeOutput_input level hmode, andThen_value _ _ _ _ _ hlatch, andThen_value _ _ _ _ _ hrmw, ret_apply,
    zext16_eq_setWidth]

/-- WRITE_OUTPUT for an Input pin whose GPIO mutation fails. -/
theorem writeOutput_of_raised {c : Config} {dir : Word16} {p : Pin} {level : Level} {kc : Option Byte} {e : Error}
    {s t u : State} (hmode : modeOf p dir = .input) (hlatch : readLatch (reg c .olat p.bank) s = (.value kc, t))
    (hrmw : rmw (reg c .gpio p.bank) p (levelBit level) kc t = (.raised e, u)) :
    writeOutput c dir p level s = (.raised e, u) := by
  rw [writeOutput_input level hmode, andThen_value _ _ _ _ _ hlatch, andThen_raised _ _ _ _ _ hrmw]

/-- Settles O26: the OLAT read gives the known current of the GPIO mutation, or its failure leaves none. -/
theorem writeOutputCompletes : Obligations.WriteOutputCompletes := by
  rintro pin level cur _ s hconstructed rfl hinput
  have hmode := modeOf_input s.config.geometry pin s.dirValue hinput
  refine ⟨fun hlatch hwrite => exec_of_value hconstructed ?_,
    fun hlatch hread hwrite => exec_of_value hconstructed ?_⟩ <;> rw [program]
  · rw [writeOutput_of_value hmode (readLatch_ok _ cur s hlatch)
      (rmw_some_ok _ _ _ cur _ (by rwa [State.ran_peek])), State.ran_ran]
    rfl
  · rw [writeOutput_of_value hmode (readLatch_fail _ s hlatch)
      (rmw_none_ok _ _ _ cur _ (by rwa [State.ran_peek]) (by rwa [State.ran_peek])), State.ran_ran]
    rfl

/-- Settles O27: where the GPIO mutation fails WRITE_OUTPUT does, whether or not OLAT was read. -/
theorem writeOutputTransport : Obligations.WriteOutputTransport := by
  rintro pin level cur _ s hconstructed hinput rfl
  have hmode := modeOf_input s.config.geometry pin s.dirValue hinput
  refine ⟨fun hlatch hread => exec_of_transport hconstructed ?_,
    fun hlatch hwrite => exec_of_transport hconstructed ?_,
    fun hlatch hread hwrite => exec_of_transport hconstructed ?_⟩ <;> rw [program]
  · rw [writeOutput_of_raised hmode (readLatch_fail _ s hlatch)
      (rmw_none_readFail _ _ _ _ (by rwa [State.ran_peek])), State.ran_ran]
    rfl
  · rw [writeOutput_of_raised hmode (readLatch_ok _ cur s hlatch)
      (rmw_some_fail _ _ _ cur _ (by rwa [State.ran_peek])), State.ran_ran]
    rfl
  · rw [writeOutput_of_raised hmode (readLatch_fail _ s hlatch)
      (rmw_none_writeFail _ _ _ cur _ (by rwa [State.ran_peek]) (by rwa [State.ran_peek])), State.ran_ran]
    rfl

/-! ### READ_INPUT and READ_CURRENT (R100, R101) -/

theorem readInput_output {c : Config} {dir : Word16} {p : Pin} (hmode : modeOf p dir = .output) :
    readInput c dir p = raise (.wrongMode p.index) := by
  rw [readInput, hmode]

theorem readInput_input {c : Config} {dir : Word16} {p : Pin} (hmode : modeOf p dir = .input) :
    readInput c dir p = readPin c p := by
  rw [readInput, hmode]

/-- The pin's bit of the byte GPIO answers. -/
theorem readPin_ok (c : Config) (pin : PinIndex) (g : Byte) (s : State) (hread : s.oracle.peek 0 = .ok g) :
    readPin c (pinOf defaultGeometry pin) s = (.value { pin := pin, bit := g.getLsbD (pin.toNat % 8) },
      s.ran 1 [readOk (reg c .gpio (pinOf defaultGeometry pin).bank) g]) := by
  rw [readPin, andThen_value _ _ _ _ _ (memRead_ok _ g s hread), ret_apply, pinOf_index, pinOf_bit]

/-- Settles O28: the guard lets an Input pin through to the GPIO read. -/
theorem readInputCompletes : Obligations.ReadInputCompletes := by
  rintro pin g _ s hconstructed hgeometry rfl hinput hread
  refine exec_of_value hconstructed ?_
  rw [program, readInput_input (modeOf_input _ pin _ hinput), hgeometry, readPin_ok _ pin g s hread]

/-- Settles O29: READ_CURRENT is the GPIO read, without a guard. -/
theorem readCurrentCompletes : Obligations.ReadCurrentCompletes := by
  rintro pin g _ s hconstructed hgeometry rfl hread
  refine exec_of_value hconstructed ?_
  rw [program, hgeometry, readPin_ok _ pin g s hread]

/-! ### The mode guards (R102) -/

theorem cfgPinInt_input {c : Config} {dir : Word16} {p : Pin} (enabled : Feature) (compare : Compare)
    (dv : Option Level) (hmode : modeOf p dir = .input) :
    cfgPinInt c dir p enabled compare dv = raise (.wrongMode p.index) := by
  rw [cfgPinInt, hmode]

/-- The pseudocode issues a bus transaction, from every state and whatever the bus answers. -/
def Issues {α : Type} (m : Bus α) : Prop := ∀ s, ∃ q rest, (m s).2.trace = s.trace ++ q :: rest

theorem issues_memRead (r : Byte) : Issues (memRead r) := by
  intro s
  rcases memRead_cases r s with ⟨v, -, e⟩ | ⟨-, e⟩ | ⟨-, e⟩ <;> exact ⟨_, [], by rw [e, State.ran_trace]⟩

theorem issues_memWrite (r v : Byte) : Issues (memWrite r v) := by
  intro s
  rcases command_cases (.write r v) s with ⟨-, e⟩ | ⟨-, e⟩ | ⟨-, e⟩ <;>
    exact ⟨_, [], by rw [memWrite, e, State.ran_trace]⟩

/-- What stands after the first transaction only adds to the trace. -/
theorem Issues.append {α : Type} {m : Bus α} (h : Issues m) {s t : State} {evs : List Event}
    (htrace : t.trace = (m s).2.trace ++ evs) : ∃ q rest, t.trace = s.trace ++ q :: rest := by
  obtain ⟨q, rest, hfirst⟩ := h s
  exact ⟨q, rest ++ evs, by rw [htrace, hfirst, List.append_assoc, List.cons_append]⟩

theorem issues_andThen {α β : Type} {m : Bus α} {g : α → Bus β} (hm : Issues m) (hg : ∀ a, IsPseudocode (g a)) :
    Issues (andThen m g) := by
  intro s
  rcases andThen_cases m g s with ⟨a, t, h, e⟩ | ⟨x, t, h, e⟩ | ⟨t, h, e⟩
  · obtain ⟨evs, htrace, -⟩ := (hg a).traces t
    exact hm.append (s := s) (evs := evs) (by rw [e, htrace, h])
  · exact hm.append (s := s) (evs := []) (by rw [e, h, List.append_nil])
  · exact hm.append (s := s) (evs := []) (by rw [e, h, List.append_nil])

theorem issues_readLatch (r : Byte) : Issues (readLatch r) := by
  intro s
  rcases caughtRead_cases r s with ⟨k, x, e⟩ | e <;> exact ⟨_, [], by rw [readLatch, e, State.ran_trace]⟩

theorem issues_rmw (r : Byte) (p : Pin) (v : Bool) (kc : Option Byte) : Issues (rmw r p v kc) := by
  cases kc with
  | none => exact issues_andThen (issues_memRead r) fun cur => .rmw r p v (some cur)
  | some k =>
    rw [rmw_some]
    exact issues_andThen (issues_memWrite r _) fun _ => .ret _

theorem issues_readPin (c : Config) (p : Pin) : Issues (readPin c p) :=
  issues_andThen (issues_memRead _) fun _ => .ret _

theorem issues_cfgPinInt_output {c : Config} {dir : Word16} {p : Pin} (enabled : Feature) (compare : Compare)
    (dv : Option Level) (hmode : modeOf p dir = .output) : Issues (cfgPinInt c dir p enabled compare dv) := by
  rw [cfgPinInt, hmode]
  exact issues_andThen (issues_rmw _ _ _ _) fun _ => .andThen (.rmw _ _ _ _) fun _ =>
    .andThen (.rmw _ _ _ _) fun _ => .ret _

theorem issues_writeOutput_input {c : Config} {dir : Word16} {p : Pin} (level : Level)
    (hmode : modeOf p dir = .input) : Issues (writeOutput c dir p level) := by
  rw [writeOutput_input level hmode]
  exact issues_andThen (issues_readLatch _) fun _ => .andThen (.rmw _ _ _ _) fun _ => .ret _

theorem exec_of_issues {i : Instr} {s : State} (hconstructed : s.constructed = true) (h : Issues (program s i)) :
    ∃ t q rest, exec i s = .next t ∧ t.trace = s.trace ++ q :: rest := by
  obtain ⟨q, rest, htrace⟩ := h s
  exact ⟨_, q, rest, exec_of_runs i s (.inr hconstructed), (conclude_trace _).trans htrace⟩

/-- Settles O30: a guard rejects by `dir` alone, and what it lets through begins with a transaction. -/
theorem modeGuardTruthTable : Obligations.ModeGuardTruthTable := by
  intro pin level enabled compare dv mode r v kc s hconstructed
  refine ⟨fun hbit => ?_, fun hbit => ?_, fun i hi => exec_of_issues hconstructed ?_⟩
  · have hmode := modeOf_output s.config.geometry pin s.dirValue hbit
    exact ⟨exec_of_wrongMode hconstructed (writeOutput_output level hmode),
      exec_of_wrongMode hconstructed (readInput_output hmode),
      exec_of_issues hconstructed (issues_cfgPinInt_output enabled compare dv hmode)⟩
  · have hmode := modeOf_input s.config.geometry pin s.dirValue hbit
    refine ⟨exec_of_wrongMode hconstructed (cfgPinInt_input enabled compare dv hmode),
      exec_of_issues hconstructed (issues_writeOutput_input level hmode), exec_of_issues hconstructed ?_⟩
    rw [program, readInput_input hmode]
    exact issues_readPin _ _
  · simp only [List.mem_cons, List.not_mem_nil, or_false] at hi
    rcases hi with rfl | rfl | rfl | rfl
    · exact issues_readPin _ _
    · exact issues_andThen (issues_rmw _ _ _ _) fun _ => .andThen (.writeDir _) fun _ => .ret _
    · exact issues_andThen (issues_rmw _ _ _ _) fun _ => .ret _
    · exact issues_andThen (issues_rmw _ _ _ _) fun _ => .ret _

end Sys2Proof.Machine
end

section
/-! The interrupt commands (42_interrupt.md): configuration of the interrupt outputs and of a pin's interrupt (R115, R116), the
highest flag of a bank (R117), the lookups built on it (R118, R119), and the polls of CLEAR_INT (R120, R121). -/

namespace Sys2Proof.Machine

/-! ### CFG_SYS_INT (R115) -/

/-- CFG_SYS_INT whose IOCON read failed: nothing is written. -/
theorem cfgSysInt_readFail (c : Config) (m : Feature) (pol : Level) (s : State) (hread : s.oracle.peek 0 = .fail) :
    cfgSysInt c m pol s = (.raised .transport, s.ran 1 [readFail (reg c .iocon .A)]) :=
  andThen_raised _ _ _ _ _ (memRead_fail _ s hread)

/-- CFG_SYS_INT whose IOCON write failed: `mirror` is not written. -/
theorem cfgSysInt_writeFail (c : Config) (m : Feature) (pol : Level) (v : Byte) (s : State)
    (hread : s.oracle.peek 0 = .ok v) (hwrite : s.oracle.peek 1 = .fail) :
    cfgSysInt c m pol s = (.raised .transport, s.ran 2 [readOk (reg c .iocon .A) v, writeFail (reg c .iocon .A)
      (setBit8 (setBit8 v c.ioconMirrorBit (featureBit m)) c.ioconIntpolBit (levelBit pol))]) := by
  rw [cfgSysInt, andThen_value _ _ _ _ _ (memRead_ok _ v s hread),
    andThen_raised _ _ _ _ _ (memWrite_fail _ _ _ (by rwa [State.ran_peek])), State.ran_ran]
  rfl

/-- Settles O31: `mirror` is written after both transactions completed. -/
theorem cfgSysIntCompletes : Obligations.CfgSysIntCompletes :=
  fun m pol v s hconstructed hread hwrite =>
    exec_of_value hconstructed (cfgSysInt_ok s.config m pol v s hread hwrite)

/-- Settles O32: either failure comes before the write of `mirror`. -/
theorem cfgSysIntFailureKeepsMirror : Obligations.CfgSysIntFailureKeepsMirror :=
  fun m pol v s hconstructed =>
    ⟨fun hread => exec_of_transport hconstructed (cfgSysInt_readFail s.config m pol s hread),
      fun hread hwrite => exec_of_transport hconstructed (cfgSysInt_writeFail s.config m pol v s hread hwrite)⟩

/-! ### CFG_PIN_INT (R116) -/

/-- The INTCON bit written for each Compare (R10, log 12). -/
theorem intconBit_eq (c : Config) (cmp : Compare) :
    intconBit c cmp = if cmp = .default then c.compareDefaultBit else !c.compareDefaultBit := by
  cases cmp <;> rfl

/-- The DEFVAL bit written is 1 exactly for a High default value (R116). -/
theorem levelBit_getD_low (dv : Option Level) : levelBit (dv.getD .low) = decide (dv = some .high) := by
  rcases dv with _ | _ | _ <;> rfl

theorem cfgPinInt_output {c : Config} {dir : Word16} {p : Pin} (enabled : Feature) (compare : Compare)
    (dv : Option Level) (hmode : modeOf p dir = .output) :
    cfgPinInt c dir p enabled compare dv =
      andThen (rmw (reg c .gpinten p.bank) p (featureBit enabled) none) fun _ =>
      andThen (rmw (reg c .intcon p.bank) p (intconBit c compare) none) fun _ =>
      andThen (rmw (reg c .defval p.bank) p (levelBit (dv.getD .low)) none) fun _ => ret { } := by
  rw [cfgPinInt, hmode]

/-- Settles O34: three mutations one after another, each a read and a write. -/
theorem cfgPinIntCompletes : Obligations.CfgPinIntCompletes := by
  rintro pin enabled cmp dv a b d p s hconstructed rfl houtput hread0 hwrite1 hread2 hwrite3 hread4 hwrite5
  refine exec_of_value hconstructed ?_
  rw [program, cfgPinInt_output _ _ _ (modeOf_output _ pin _ houtput),
    andThen_value _ _ _ _ _ (rmw_none_ok _ _ _ a s hread0 hwrite1),
    andThen_value _ _ _ _ _ (rmw_none_ok _ _ _ b _ (by rwa [State.ran_peek]) (by rwa [State.ran_peek])), State.ran_ran,
    andThen_value _ _ _ _ _ (rmw_none_ok _ _ _ d _ (by rwa [State.ran_peek]) (by rwa [State.ran_peek])), State.ran_ran,
    intconBit_eq, levelBit_getD_low]
  rfl

/-! ### The highest set bit (R117) -/

theorem highestFrom_le (b : Byte) (n : Nat) : highestFrom b n ≤ n := by
  induction n with
  | zero => exact Nat.le_refl 0
  | succ n ih =>
    rw [highestFrom]
    split
    · exact Nat.le_refl _
    · exact Nat.le_succ_of_le ih

/-- The search passes over zeros only. -/
theorem getLsbD_of_highestFrom_lt (b : Byte) (n : Nat) {j : Nat} (hj : highestFrom b n < j) (hn : j ≤ n) :
    b.getLsbD j = false := by
  induction n with
  | zero => omega
  | succ n ih =>
    rw [highestFrom] at hj
    split at hj
    · omega
    · next hzero =>
      rcases Nat.le_succ_iff.1 hn with hle | rfl
      · exact ih hj hle
      · exact Bool.eq_false_iff.2 hzero

/-- The search stops at a one, or at the lowest bit. -/
theorem highestFrom_eq_zero_or (b : Byte) (n : Nat) : highestFrom b n = 0 ∨ b.getLsbD (highestFrom b n) = true := by
  induction n with
  | zero => exact .inl rfl
  | succ n ih =>
    rw [highestFrom]
    split
    · next hone => exact .inr hone
    · exact ih

theorem hsb_toNat (b : Byte) : (hsb b).toNat = highestFrom b 7 := by
  rw [hsb, BitVec.toNat_ofNat, Nat.mod_eq_of_lt (Nat.lt_succ_of_le (highestFrom_le b 7))]

theorem getLsbD_of_hsb_lt (b : Byte) {j : Nat} (hj : (hsb b).toNat < j) : b.getLsbD j = false := by
  by_cases h : j ≤ 7
  · exact getLsbD_of_highestFrom_lt b 7 (hsb_toNat b ▸ hj) h
  · exact BitVec.getLsbD_of_ge b j (by omega)

/-- Where the search ends at bit 0 because it found no one, the byte is 0. -/
theorem getLsbD_hsb {b : Byte} (hb : b ≠ 0) : b.getLsbD (hsb b).toNat = true := by
  rcases highestFrom_eq_zero_or b 7 with hzero | hone
  · rw [← hsb_toNat] at hzero
    by_contra hbit
    refine hb (BitVec.eq_of_getLsbD_eq fun j _ => Eq.trans ?_ BitVec.getLsbD_zero.symm)
    rcases Nat.eq_zero_or_pos j with rfl | hpos
    · simpa [hzero] using hbit
    · exact getLsbD_of_hsb_lt b (hzero ▸ hpos)
  · rwa [hsb_toNat]

/-- A one at `hsb` bounds the byte from below, zeros above it bound it from above. -/
theorem hsb_eq_log2 {b : Byte} (hb : b ≠ 0) : (hsb b).toNat = Nat.log2 b.toNat := by
  have hlower : 2 ^ (hsb b).toNat ≤ b.toNat := Nat.ge_two_pow_of_testBit (getLsbD_hsb hb)
  have hupper : b.toNat < 2 ^ ((hsb b).toNat + 1) :=
    Nat.lt_pow_two_of_testBit _ fun j hj => getLsbD_of_hsb_lt b hj
  have hpos : b.toNat ≠ 0 := fun h => hb (BitVec.eq_of_toNat_eq h)
  exact ((Nat.log2_eq_iff hpos).2 ⟨hlower, hupper⟩).symm

/-- Settles O35. -/
theorem highestSetBit : Obligations.HighestSetBit :=
  fun b hb => ⟨getLsbD_hsb hb, fun _ hj => getLsbD_of_hsb_lt b hj, hsb_eq_log2 hb⟩

/-! ### READ_INT_REG (R118) -/

/-- No flag in the bank: INTCAP is not read. -/
theorem readIntReg_quiet (c : Config) (bank : Bank) (s : State) (hintf : s.oracle.peek 0 = .ok 0) :
    readIntReg c bank s = (.value none, s.ran 1 [readOk (reg c .intf bank) 0]) := by
  rw [readIntReg, andThen_value _ _ _ _ _ (memRead_ok _ 0 s hintf), if_pos rfl, ret_apply]

theorem readIntReg_intfFail (c : Config) (bank : Bank) (s : State) (hintf : s.oracle.peek 0 = .fail) :
    readIntReg c bank s = (.raised .transport, s.ran 1 [readFail (reg c .intf bank)]) :=
  andThen_raised _ _ _ _ _ (memRead_fail _ s hintf)

/-- A flag in the bank: its highest, with the captured state. -/
theorem readIntReg_flagged (c : Config) (bank : Bank) {f : Byte} (v : Byte) (s : State) (hintf : s.oracle.peek 0 = .ok f)
    (hf : f ≠ 0) (hintcap : s.oracle.peek 1 = .ok v) :
    readIntReg c bank s = (.value (some (pinAt c.geometry bank (hsb f), v.getLsbD (hsb f).toNat)),
      s.ran 2 [readOk (reg c .intf bank) f, readOk (reg c .intcap bank) v]) := by
  rw [readIntReg, andThen_value _ _ _ _ _ (memRead_ok _ f s hintf), if_neg hf,
    andThen_value _ _ _ _ _ (memRead_ok _ v _ (by rwa [State.ran_peek])), State.ran_ran]
  rfl

theorem readIntReg_intcapFail (c : Config) (bank : Bank) {f : Byte} (s : State) (hintf : s.oracle.peek 0 = .ok f)
    (hf : f ≠ 0) (hintcap : s.oracle.peek 1 = .fail) :
    readIntReg c bank s = (.raised .transport, s.ran 2 [readOk (reg c .intf bank) f, readFail (reg c .intcap bank)]) := by
  rw [readIntReg, andThen_value _ _ _ _ _ (memRead_ok _ f s hintf), if_neg hf,
    andThen_raised _ _ _ _ _ (memRead_fail _ _ (by rwa [State.ran_peek])), State.ran_ran]
  rfl

theorem readIntReg_program_of_value {s t : State} {bank : Bank} {r : Option (PinIndex × Bool)}
    (hlookup : readIntReg s.config bank s = (.value r, t)) :
    program s (.readIntReg bank) s = (.value (interruptResponse r), t) :=
  andThen_value _ _ _ _ _ hlookup

/-- Settles O36: READ_INT_REG answers what the lookup in the bank finds. -/
theorem readIntRegCompletes : Obligations.ReadIntRegCompletes := by
  intro bank f v s hconstructed hgeometry hintf
  refine ⟨fun hf => ?_, fun hf hintcap => ?_⟩
  · subst hf
    exact exec_of_value hconstructed (readIntReg_program_of_value (readIntReg_quiet _ bank s hintf))
  · rw [exec_of_value hconstructed (readIntReg_program_of_value (readIntReg_flagged _ bank v s hintf hf hintcap)),
      hgeometry, pinAt_default, interruptResponse]

/-! ### READ_INT (R119) -/

theorem readInt_program_unmirrored {s : State} (hmirror : s.mirrorOn = false) (bank : Bank) :
    program s (.readInt bank) = program s (.readIntReg bank) := by
  rw [program, program, hmirror, readInt_unmirrored]

/-- A flag in bank A ends a mirrored READ_INT. -/
theorem readInt_mirrored_flagged (c : Config) (bank : Bank) {f : Byte} (v : Byte) (s : State)
    (hintf : s.oracle.peek 0 = .ok f) (hf : f ≠ 0) (hintcap : s.oracle.peek 1 = .ok v) :
    readInt c true bank s = (.value (interruptResponse (some (pinAt c.geometry .A (hsb f), v.getLsbD (hsb f).toNat))),
      s.ran 2 [readOk (reg c .intf .A) f, readOk (reg c .intcap .A) v]) := by
  rw [readInt_mirrored, andThen_value _ _ _ _ _ (memRead_ok _ f s hintf), if_neg hf,
    andThen_value _ _ _ _ _ (memRead_ok _ v _ (by rwa [State.ran_peek])), State.ran_ran]
  rfl

theorem readInt_mirrored_intfFail (c : Config) (bank : Bank) (s : State) (hintf : s.oracle.peek 0 = .fail) :
    readInt c true bank s = (.raised .transport, s.ran 1 [readFail (reg c .intf .A)]) := by
  rw [readInt_mirrored, andThen_raised _ _ _ _ _ (memRead_fail _ s hintf)]

theorem readInt_mirrored_intcapFail (c : Config) (bank : Bank) {f : Byte} (s : State) (hintf : s.oracle.peek 0 = .ok f)
    (hf : f ≠ 0) (hintcap : s.oracle.peek 1 = .fail) :
    readInt c true bank s =
      (.raised .transport, s.ran 2 [readOk (reg c .intf .A) f, readFail (reg c .intcap .A)]) := by
  rw [readInt_mirrored, andThen_value _ _ _ _ _ (memRead_ok _ f s hintf), if_neg hf,
    andThen_raised _ _ _ _ _ (memRead_fail _ _ (by rwa [State.ran_peek])), State.ran_ran]
  rfl

/-- With bank A quiet a mirrored READ_INT answers what bank B's lookup finds. -/
theorem readInt_mirrored_of_value {c : Config} (bank : Bank) {s t : State} {r : Option (PinIndex × Bool)}
    (hintf : s.oracle.peek 0 = .ok 0)
    (hlookup : readIntReg c .B (s.ran 1 [readOk (reg c .intf .A) 0]) = (.value r, t)) :
    readInt c true bank s = (.value (interruptResponse r), t) := by
  rw [readInt_mirrored, andThen_value _ _ _ _ _ (memRead_ok _ 0 s hintf), if_pos rfl,
    andThen_value _ _ _ _ _ (catchTransport_value _ _ _ _ _ hlookup), ret_apply]

/-- With bank A quiet a transport failure of bank B's lookup is no interrupt. -/
theorem readInt_mirrored_of_transport {c : Config} (bank : Bank) {s t : State} (hintf : s.oracle.peek 0 = .ok 0)
    (hlookup : readIntReg c .B (s.ran 1 [readOk (reg c .intf .A) 0]) = (.raised .transport, t)) :
    readInt c true bank s = (.value { }, t) := by
  rw [readInt_mirrored, andThen_value _ _ _ _ _ (memRead_ok _ 0 s hintf), if_pos rfl,
    andThen_value _ _ _ _ _ (catchTransport_transport _ (ret none) _ _ hlookup), ret_apply,
    interruptResponse]

theorem readInt_program_mirrored {s : State} (hmirror : s.mirrorOn = true) (bank : Bank) :
    program s (.readInt bank) = readInt s.config true bank := by
  rw [program, hmirror]

/-- Settles O37: with mirror Off the two programs are one; with mirror On bank A's flag ends the lookup. -/
theorem readIntCompletes : Obligations.ReadIntCompletes := by
  intro bank s hconstructed
  refine ⟨fun hoff => ⟨?_, fun hintf => ?_⟩, fun hon f v hintf hf hintcap => exec_of_value hconstructed ?_⟩
  · rw [exec_of_runs _ s (.inr hconstructed), exec_of_runs _ s (.inr hconstructed), readInt_program_unmirrored hoff]
  · refine exec_of_value hconstructed ?_
    rw [readInt_program_unmirrored hoff, readIntReg_program_of_value (readIntReg_quiet _ bank s hintf),
      interruptResponse]
  · rw [readInt_program_mirrored hon, readInt_mirrored_flagged _ bank v s hintf hf hintcap]
    rfl

/-- Settles O38: bank A's failures go through, bank B's are caught. -/
theorem mirroredReadIntUsesBankB : Obligations.MirroredReadIntUsesBankB := by
  intro bank f v s hconstructed hgeometry hon
  refine ⟨fun hintf => exec_of_transport hconstructed ?_, fun hintf hf hintcap => exec_of_transport hconstructed ?_,
    fun hintfA => ⟨fun hintf => exec_of_value hconstructed ?_, fun hintf => exec_of_value hconstructed ?_,
      fun hintf hf hintcap => exec_of_value hconstructed ?_,
      fun hintf hf hintcap => exec_of_value hconstructed ?_⟩⟩ <;>
    rw [readInt_program_mirrored hon]
  · exact readInt_mirrored_intfFail _ bank s hintf
  · exact readInt_mirrored_intcapFail _ bank s hintf hf hintcap
  · rw [readInt_mirrored_of_transport bank hintfA (readIntReg_intfFail _ _ _ (by rwa [State.ran_peek])), State.ran_ran]
    rfl
  · rw [readInt_mirrored_of_value bank hintfA (readIntReg_quiet _ _ _ (by rwa [State.ran_peek])), State.ran_ran]
    rfl
  · rw [readInt_mirrored_of_transport bank hintfA (readIntReg_intcapFail _ _ _ (by rwa [State.ran_peek]) hf
      (by rwa [State.ran_peek])), State.ran_ran]
    rfl
  · rw [readInt_mirrored_of_value bank hintfA (readIntReg_flagged _ _ v _ (by rwa [State.ran_peek]) hf
      (by rwa [State.ran_peek])), State.ran_ran, hgeometry, pinAt_default]
    rfl

/-! ### CLEAR_INT (R120, R121) -/

theorem pollInt_ok (c : Config) (a b : Byte) (s : State) (hA : s.oracle.peek 0 = .ok a) (hB : s.oracle.peek 1 = .ok b) :
    pollInt c s = (.value (a, b), s.ran 2 (pollEvents c a b)) := by
  rw [pollInt, andThen_value _ _ _ _ _ (memRead_ok _ a s hA),
    andThen_value _ _ _ _ _ (memRead_ok _ b _ (by rwa [State.ran_peek])), State.ran_ran]
  rfl

/-- CLEAR_INT after its first poll. -/
theorem clearInt_polled (c : Config) (a b : Byte) (s : State) (hA : s.oracle.peek 0 = .ok a)
    (hB : s.oracle.peek 1 = .ok b) :
    clearInt c s = (if a = 0 ∧ b = 0 then ret { } else clearRetry c c.clearRetries) (s.ran 2 (pollEvents c a b)) := by
  rw [clearInt, andThen_value _ _ _ _ _ (pollInt_ok c a b s hA hB)]

/-- A retry after its PAUSE and its poll. -/
theorem clearRetry_polled (c : Config) (n : Nat) (a b : Byte) (s : State) (hpause : s.timer.peek 0 = true)
    (hA : s.oracle.peek 0 = .ok a) (hB : s.oracle.peek 1 = .ok b) :
    clearRetry c (n + 1) s = (if a = 0 ∨ b = 0 then ret { } else clearRetry c n)
      ((s.ran 2 (paused c.clearPauseMs :: pollEvents c a b)).waited 1) := by
  rw [clearRetry, andThen_value _ _ _ _ _ (pause_done _ s hpause),
    andThen_value _ _ _ _ _ (pollInt_ok c a b _ (by simpa using hA) (by simpa using hB)), State.ran_waited,
    State.ran_ran]
  rfl

/-- The forced clear: both GPIO registers are read for their effect on the expander (R46), then the error is raised. -/
theorem clearRetry_zero_ok (c : Config) (ga gb : Byte) (s : State) (hA : s.oracle.peek 0 = .ok ga)
    (hB : s.oracle.peek 1 = .ok gb) :
    clearRetry c 0 s =
      (.raised .forcedClear, s.ran 2 [readOk (reg c .gpio .A) ga, readOk (reg c .gpio .B) gb]) := by
  rw [clearRetry, andThen_value _ _ _ _ _ (memRead_ok _ ga s hA),
    andThen_value _ _ _ _ _ (memRead_ok _ gb _ (by rwa [State.ran_peek])), State.ran_ran]
  rfl

theorem retryEvents_succ (c : Config) (fa fb : Nat → Byte) (n : Nat) :
    retryEvents c fa fb (n + 1) =
      retryEvents c fa fb n ++ paused c.clearPauseMs :: pollEvents c (fa (n + 1)) (fb (n + 1)) := by
  simp [retryEvents, List.range_succ]

/-- Three events a retry: a PAUSE and two reads. -/
theorem retryEvents_length (c : Config) (fa fb : Nat → Byte) (n : Nat) : (retryEvents c fa fb n).length = 3 * n := by
  induction n with
  | zero => rfl
  | succ n ih => rw [retryEvents_succ, List.length_append, ih]; rfl

/-- `s` after the first poll of CLEAR_INT and `n` retries, the k-th poll (from 0) reading `fa k` and `fb k`. -/
def State.polled (s : State) (fa fb : Nat → Byte) (n : Nat) : State :=
  (s.ran (2 * n + 2) (pollEvents s.config (fa 0) (fb 0) ++ retryEvents s.config fa fb n)).waited n

theorem State.polled_oracle_peek (s : State) (fa fb : Nat → Byte) (n k : Nat) :
    (s.polled fa fb n).oracle.peek k = s.oracle.peek (2 * n + 2 + k) := by
  rw [polled, State.waited_oracle, State.ran_peek]

theorem State.polled_timer_peek (s : State) (fa fb : Nat → Byte) (n : Nat) :
    (s.polled fa fb n).timer.peek 0 = s.timer.peek n := by
  rw [polled, State.waited_timer, State.ran_timer, Timer.peek_skip, Nat.add_zero]

theorem State.polled_succ (s : State) (fa fb : Nat → Byte) (n : Nat) :
    ((s.polled fa fb n).ran 2 (paused s.config.clearPauseMs :: pollEvents s.config (fa (n + 1)) (fb (n + 1)))).waited 1 =
      s.polled fa fb (n + 1) := by
  rw [polled, polled, retryEvents_succ, State.ran_waited, State.ran_ran, State.waited_waited, List.append_assoc]
  rfl

/-- The next retry of CLEAR_INT, by what it reads. -/
theorem clearRetry_at_polled (s : State) (fa fb : Nat → Byte) (n m : Nat) (hpause : s.timer.peek n = true)
    (hpoll : s.oracle.peek (2 * (n + 1)) = .ok (fa (n + 1)) ∧ s.oracle.peek (2 * (n + 1) + 1) = .ok (fb (n + 1))) :
    clearRetry s.config (m + 1) (s.polled fa fb n) =
      (if fa (n + 1) = 0 ∨ fb (n + 1) = 0 then ret { } else clearRetry s.config m) (s.polled fa fb (n + 1)) := by
  obtain ⟨hA, hB⟩ := hpoll
  rw [clearRetry_polled _ m (fa (n + 1)) (fb (n + 1)) _ (by rwa [State.polled_timer_peek])
    (by rwa [State.polled_oracle_peek]) (by rwa [State.polled_oracle_peek]), State.polled_succ]

/-- Where the first poll does not see both banks at zero and the first `n` retries see neither at zero, CLEAR_INT goes on with
the retries that are left. -/
theorem clearInt_eq_clearRetry (s : State) (fa fb : Nat → Byte) (n : Nat) (hn : n ≤ s.config.clearRetries)
    (hpause : ∀ j, j < n → s.timer.peek j = true)
    (hpoll : ∀ j, j ≤ n → s.oracle.peek (2 * j) = .ok (fa j) ∧ s.oracle.peek (2 * j + 1) = .ok (fb j))
    (hfirst : ¬ (fa 0 = 0 ∧ fb 0 = 0)) (hretry : ∀ j, 1 ≤ j → j ≤ n → fa j ≠ 0 ∧ fb j ≠ 0) :
    clearInt s.config s = clearRetry s.config (s.config.clearRetries - n) (s.polled fa fb n) := by
  induction n with
  | zero =>
    obtain ⟨hA, hB⟩ := hpoll 0 (Nat.le_refl 0)
    rw [clearInt_polled _ _ _ s hA hB, if_neg hfirst]
    simp [State.polled, retryEvents]
  | succ n ih =>
    have hnonzero : ¬ (fa (n + 1) = 0 ∨ fb (n + 1) = 0) := not_or.2 (hretry (n + 1) (by omega) (Nat.le_refl _))
    rw [ih (by omega) (fun j hj => hpause j (by omega)) (fun j hj => hpoll j (by omega))
        (fun j h1 hj => hretry j h1 (by omega)),
      show s.config.clearRetries - n = s.config.clearRetries - (n + 1) + 1 by omega,
      clearRetry_at_polled s fa fb n _ (hpause n (by omega)) (hpoll (n + 1) (Nat.le_refl _)), if_neg hnonzero]

/-- Settles O39: the first poll sees both banks at zero. -/
theorem clearIntFirstPoll : Obligations.ClearIntFirstPoll := by
  intro s hconstructed hA hB
  refine exec_of_value hconstructed ?_
  rw [program, clearInt_polled _ 0 0 s hA hB, if_pos ⟨rfl, rfl⟩, ret_apply]

/-- Settles O40: k retries are passed, and the next sees a bank at zero. -/
theorem clearIntSucceedsAtRetry : Obligations.ClearIntSucceedsAtRetry := by
  intro s fa fb k hconstructed hk hpause hpoll hfirst hretry hzero
  refine ⟨exec_of_value (t := s.polled fa fb (k + 1)) hconstructed ?_, ?_⟩
  · rw [program, clearInt_eq_clearRetry s fa fb k hk.le (fun j hj => hpause j hj.le) (fun j hj => hpoll j (by omega))
        hfirst hretry,
      show s.config.clearRetries - k = s.config.clearRetries - (k + 1) + 1 by omega,
      clearRetry_at_polled s fa fb k _ (hpause k (Nat.le_refl k)) (hpoll (k + 1) (Nat.le_refl _)), if_pos hzero,
      ret_apply]
  · rw [List.length_append, retryEvents_length]
    rfl

/-- Settles O41: all retries are passed, and the forced clear follows. -/
theorem clearIntForcedClear : Obligations.ClearIntForcedClear := by
  intro s fa fb ga gb hconstructed hpause hpoll hfirst hretry hgpioA hgpioB
  refine ⟨?_, ?_⟩
  · rw [exec_of_runs _ s (.inr hconstructed), program,
      clearInt_eq_clearRetry s fa fb _ (Nat.le_refl _) hpause hpoll hfirst hretry, Nat.sub_self,
      clearRetry_zero_ok _ ga gb _ (by rwa [State.polled_oracle_peek]) (by rwa [State.polled_oracle_peek]),
      conclude_raised, State.polled, State.ran_waited, State.ran_ran]
    rfl
  · simp only [List.length_append, retryEvents_length]
    rfl

end Sys2Proof.Machine
end

section
/-! The device commands (43_device.md): the reset sequence, completed or ended by a failed write (R135), and CONSTRUCT (R136),
taken apart into its transactions, which write no register of the block, and the registers written after them. -/

namespace Sys2Proof.Machine

/-! ### The reset sequence (R135) -/

/-- The writes of a list up to the first that fails. -/
theorem writeAll_fail {ws : List (Byte × Byte)} {n : Nat} {r v : Byte} (s : State) (hn : ws[n]? = some (r, v))
    (hok : ∀ k, k < n → isOk (s.oracle.peek k) = true) (hfail : s.oracle.peek n = .fail) :
    writeAll ws s =
      (.raised .transport, s.ran (n + 1) ((ws.map fun p => writeOk p.1 p.2).take n ++ [writeFail r v])) := by
  induction ws generalizing n s with
  | nil => exact nomatch hn
  | cons p ws ih =>
    cases n with
    | zero =>
      obtain rfl : p = (r, v) := Option.some.inj hn
      exact andThen_raised _ _ _ _ _ (memWrite_fail r v s hfail)
    | succ n =>
      rw [writeAll, andThen_value _ _ _ _ _ (memWrite_ok _ _ s (hok 0 n.succ_pos)),
        ih (s.ran 1 _) hn (fun k hk => by rw [State.ran_peek]; exact hok (1 + k) (by omega))
          (by rwa [State.ran_peek, Nat.add_comm]),
        State.ran_ran, Nat.add_comm 1]
      rfl

theorem resetWrites_length {c : Config} (hgeometry : c.geometry = defaultGeometry) : (resetWrites c).length = 14 := by
  rw [resetWrites, hgeometry]
  rfl

/-- What a completed reset sequence adds to the trace: its writes, then the reads of both GPIO registers. -/
def resetEvents (c : Config) (ga gb : Byte) : List Event :=
  resetWriteEvents c ++ [readOk (reg c .gpio .A) ga, readOk (reg c .gpio .B) gb]

/-- The reset sequence, every transaction answered ok. -/
theorem resetSeq_ok {c : Config} {ga gb : Byte} (s : State) (hgeometry : c.geometry = defaultGeometry)
    (hwrites : ∀ k, k < 14 → isOk (s.oracle.peek k) = true) (hgpioA : s.oracle.peek 14 = .ok ga)
    (hgpioB : s.oracle.peek 15 = .ok gb) : resetSeq c s = (.value (), s.ran 16 (resetEvents c ga gb)) := by
  have hall := writeAll_ok (resetWrites c) s (by rwa [resetWrites_length hgeometry])
  rw [resetWrites_length hgeometry] at hall
  rw [resetSeq, andThen_value _ _ _ _ _ hall,
    andThen_value _ _ _ _ _ (memRead_ok _ ga _ (by rwa [State.ran_peek])), State.ran_ran,
    andThen_value _ _ _ _ _ (memRead_ok _ gb _ (by rwa [State.ran_peek])), State.ran_ran, ret_apply, List.append_assoc]
  rfl

/-- Settles O43: RESET is the reset sequence, which writes no register of the block. -/
theorem resetCompletes : Obligations.ResetCompletes := by
  intro ga gb s hconstructed hgeometry hwrites hgpioA hgpioB
  refine ⟨(List.length_map _).trans (resetWrites_length hgeometry), exec_of_value hconstructed ?_⟩
  exact andThen_value _ _ _ _ _ (resetSeq_ok s hgeometry hwrites hgpioA hgpioB)

/-- Settles O45: the failed write ends the writes, with them the reset sequence and RESET. -/
theorem resetStopsAtFailedWrite : Obligations.ResetStopsAtFailedWrite := by
  intro n r v s hconstructed hn hok hfail
  exact exec_of_transport hconstructed
    (andThen_raised _ _ _ _ _ (andThen_raised _ _ _ _ _ (writeAll_fail s hn hok hfail)))

/-- Settles O44: fixed addresses and values, compared with the list of R135. -/
theorem resetWriteListAtDefaults : Obligations.ResetWriteListAtDefaults := by
  unfold Obligations.ResetWriteListAtDefaults
  decide

/-! ### The errors pseudocode raises -/

/-- Every error the pseudocode raises is of `E`. -/
def RaisesOnly (E : Error → Prop) {α : Type} (m : Bus α) : Prop :=
  ∀ ⦃s t : State⦄ ⦃e : Error⦄, m s = (.raised e, t) → E e

section RaisesOnly

variable {E : Error → Prop} {α β : Type}

theorem raisesOnly_ret (a : α) : RaisesOnly E (ret a) := fun _ _ _ h => nomatch h

theorem raisesOnly_andThen {m : Bus α} {g : α → Bus β} (hm : RaisesOnly E m) (hg : ∀ a, RaisesOnly E (g a)) :
    RaisesOnly E (andThen m g) := by
  intro s t e h
  rcases andThen_cases m g s with ⟨a, u, -, heq⟩ | ⟨x, u, hraised, heq⟩ | ⟨u, -, heq⟩ <;> rw [heq] at h
  · exact hg a h
  · obtain ⟨rfl, rfl⟩ : x = e ∧ u = t := by simpa using h
    exact hm hraised
  · exact nomatch h

theorem raisesOnly_command (hE : E .transport) (q : Request) : RaisesOnly E (command q) := by
  intro s t e h
  rcases command_cases q s with ⟨-, heq⟩ | ⟨-, heq⟩ | ⟨-, heq⟩ <;> rw [heq] at h <;> cases h
  exact hE

theorem raisesOnly_memRead (hE : E .transport) (r : Byte) : RaisesOnly E (memRead r) := by
  intro s t e h
  rcases memRead_cases r s with ⟨v, -, heq⟩ | ⟨-, heq⟩ | ⟨-, heq⟩ <;> rw [heq] at h <;> cases h
  exact hE

theorem raisesOnly_writeAll (hE : E .transport) (ws : List (Byte × Byte)) : RaisesOnly E (writeAll ws) := by
  induction ws with
  | nil => exact raisesOnly_ret ()
  | cons p ws ih => exact raisesOnly_andThen (raisesOnly_command hE _) fun _ => ih

theorem raisesOnly_resetSeq (hE : E .transport) (c : Config) : RaisesOnly E (resetSeq c) :=
  raisesOnly_andThen (raisesOnly_writeAll hE _) fun _ => raisesOnly_andThen (raisesOnly_memRead hE _) fun _ =>
    raisesOnly_andThen (raisesOnly_memRead hE _) fun _ => raisesOnly_ret ()

end RaisesOnly

/-! ### CONSTRUCT (R136) -/

/-- The transactions of CONSTRUCT, and the direction word of its two IODIR reads. -/
def constructTransactions (c : Config) (addr : Byte) : Bus Word16 :=
  andThen (setAddr addr) fun _ =>
  andThen (memRead (reg c .iodir .A)) fun a =>
  andThen (memRead (reg c .iodir .B)) fun b =>
  andThen (resetSeq c) fun _ =>
  ret (dirWord c.geometry (composeBanks c.geometry a b))

/-- `s` with the registers of a block just constructed, its direction word `w`. -/
def State.withConstructed (s : State) (w : Word16) : State :=
  { s with dir := some w, mirror := some .off, constructed := true }

/-- CONSTRUCT clears `constructed`, then come the transactions, and only after the last of them the registers. -/
theorem construct_eq (c : Config) (addr : Byte) (s : State) :
    construct c addr s = andThen (constructTransactions c addr) (fun w t => (.value { }, t.withConstructed w))
      { s with constructed := false } := by
  simp only [constructTransactions, andThen_assoc, ret_andThen]
  rfl

theorem exec_construct (addr : Byte) (s : State) :
    exec (.construct addr) s = .next (conclude (construct s.config addr s)) :=
  exec_of_runs (.construct addr) s (.inl rfl)

/-- The transactions of CONSTRUCT, all answered ok. -/
theorem constructTransactions_ok {c : Config} {a b ga gb : Byte} (addr : Byte) (s : State)
    (hgeometry : c.geometry = defaultGeometry) (haddr : isOk (s.oracle.peek 0) = true)
    (hiodirA : s.oracle.peek 1 = .ok a) (hiodirB : s.oracle.peek 2 = .ok b)
    (hwrites : ∀ k, k < 14 → isOk (s.oracle.peek (3 + k)) = true) (hgpioA : s.oracle.peek 17 = .ok ga)
    (hgpioB : s.oracle.peek 18 = .ok gb) :
    constructTransactions c addr s = (.value (b ++ a),
      s.ran 19 ([setAddrOk addr, readOk (reg c .iodir .A) a, readOk (reg c .iodir .B) b] ++ resetEvents c ga gb)) := by
  rw [constructTransactions, andThen_value _ _ _ _ _ (setAddr_ok addr s haddr),
    andThen_value _ _ _ _ _ (memRead_ok _ a _ (by rwa [State.ran_peek])), State.ran_ran,
    andThen_value _ _ _ _ _ (memRead_ok _ b _ (by rwa [State.ran_peek])), State.ran_ran,
    andThen_value _ _ _ _ _ (resetSeq_ok (ga := ga) (gb := gb) _ hgeometry
      (fun k hk => by rw [State.ran_peek]; exact hwrites k hk) (by rwa [State.ran_peek]) (by rwa [State.ran_peek])),
    State.ran_ran, ret_apply, hgeometry, dirWord_default, composeBanks_default]
  rfl

/-- Settles O46: all transactions answered, the registers are written. -/
theorem constructCompletes : Obligations.ConstructCompletes := by
  intro addr a b ga gb s hgeometry haddr hiodirA hiodirB hwrites hgpioA hgpioB
  have htransactions := constructTransactions_ok addr { s with constructed := false } hgeometry haddr hiodirA hiodirB hwrites
    hgpioA hgpioB
  rw [exec_construct, construct_eq, andThen_value _ _ _ _ _ htransactions, conclude_value, List.append_assoc]
  rfl

/-- The transactions of CONSTRUCT keep whatever bus transactions keep. -/
theorem keeps_constructTransactions {γ : Type} {f : State → γ} (hran : ∀ s n evs, f (State.ran s n evs) = f s)
    (c : Config) (addr : Byte) : Keeps f (constructTransactions c addr) :=
  keeps_andThen (keeps_command hran _) fun _ => keeps_andThen (keeps_memRead hran _) fun _ =>
    keeps_andThen (keeps_memRead hran _) fun _ => keeps_andThen (keeps_resetSeq hran c) fun _ => keeps_ret f _

theorem raisesOnly_constructTransactions {E : Error → Prop} (hE : E .transport) (c : Config) (addr : Byte) :
    RaisesOnly E (constructTransactions c addr) :=
  raisesOnly_andThen (raisesOnly_command hE _) fun _ => raisesOnly_andThen (raisesOnly_memRead hE _) fun _ =>
    raisesOnly_andThen (raisesOnly_memRead hE _) fun _ => raisesOnly_andThen (raisesOnly_resetSeq hE c) fun _ =>
      raisesOnly_ret _

/-- Everything CONSTRUCT can do (R136, R147, R173): complete and write the registers, end with TRANSPORT, or wait for an answer
that never comes. `u` is the state its transactions leave, with the block's registers and responses as they found them. -/
theorem construct_cases (c : Config) (addr : Byte) (s : State) :
    ∃ u : State, (u.constructed = false ∧ u.dir = s.dir ∧ u.mirror = s.mirror ∧ u.responses = s.responses) ∧
      ((∃ w, construct c addr s = (.value { }, u.withConstructed w)) ∨
        construct c addr s = (.raised .transport, u) ∨ construct c addr s = (.waiting, u)) := by
  have hkeep {γ : Type} {f : State → γ} (hran : ∀ s n evs, f (State.ran s n evs) = f s) :=
    keeps_constructTransactions hran c addr { s with constructed := false }
  refine ⟨_, ⟨hkeep State.ran_constructed, hkeep State.ran_dir, hkeep State.ran_mirror, hkeep State.ran_responses⟩, ?_⟩
  rw [construct_eq]
  rcases h : constructTransactions c addr { s with constructed := false } with ⟨w | e | _, u⟩
  · exact .inl ⟨w, andThen_value _ _ _ _ _ h⟩
  · obtain rfl := raisesOnly_constructTransactions (E := (· = .transport)) rfl c addr h
    exact .inr (.inl (andThen_raised _ _ _ _ _ h))
  · exact .inr (.inr (andThen_waiting _ _ _ _ h))

/-- Settles O47: the registers are written only by a CONSTRUCT that completes. -/
theorem failedConstructLeavesUnconstructed : Obligations.FailedConstructLeavesUnconstructed := by
  intro addr s t ht
  rw [exec_construct] at ht
  obtain rfl := Host.Outcome.next.inj ht
  obtain ⟨u, ⟨hconstructed, hdir, hmirror, hresponses⟩, ⟨w, h⟩ | h | h⟩ := construct_cases s.config addr s <;> rw [h]
  · simp [State.withConstructed, hresponses]
  · simp [hconstructed, hdir, hmirror, hresponses, errorResponse]
  · simp [hconstructed, hdir, hmirror]

end Sys2Proof.Machine
end

section
/-! What commands answer (60_exceptions.md): NOT_CONSTRUCTED before a successful CONSTRUCT (R148), and only the statuses that the
row of R145 names. The second is read off the two ways a program can answer: with the response it gives, or with that of the error
it raises. -/

namespace Sys2Proof.Machine

/-! ### The construction check (R148) -/

/-- A bus command of a block that is not constructed is answered at once. -/
theorem exec_unconstructed {i : Instr} {s : State} (hbus : runsUnconstructed i = false)
    (hconstructed : s.constructed = false) : exec i s = .next (s.respond notConstructedResponse) := by
  rw [exec_eq_program, if_neg (by simp [hbus, hconstructed])]

/-- Settles O8: the step runs the command, which the construction check answers with the response word 0x5. -/
theorem unconstructedBusCommandAnswered : Obligations.UnconstructedBusCommandAnswered := by
  intro s w rest i hbusy hcommands hdecode hbus hconstructed
  have hword : responseWord notConstructedResponse = 0x00000005 := by decide
  have hcheck : State.constructed { s with busy := true, commands := rest } = false := hconstructed
  rw [step_command hbusy hcommands hdecode, exec_unconstructed hbus hcheck, State.respond, hword, hbusy]

/-! ### The errors pseudocode raises -/

section RaisesOnly

variable {E : Error → Prop}

theorem raisesOnly_catchTransport {α : Type} {m g : Bus α} (hm : RaisesOnly E m) (hg : RaisesOnly E g) :
    RaisesOnly E (catchTransport m g) := by
  intro s t e h
  rcases catchTransport_cases m g s with ⟨u, -, heq⟩ | ⟨-, heq⟩ <;> rw [heq] at h
  · exact hg h
  · exact hm h

theorem raisesOnly_writeMirror (m : Feature) : RaisesOnly E (writeMirror m) := fun _ _ _ h => nomatch h

theorem raisesOnly_writeDir (w : Word16) : RaisesOnly E (writeDir w) := fun _ _ _ h => nomatch h

/-- A PAUSE raises nothing: `done` is its only answer (R41). -/
theorem raisesOnly_pause (ms : Nat) : RaisesOnly E (pause ms) := by
  intro s t e h
  rcases pause_cases ms s with ⟨-, heq⟩ | ⟨-, heq⟩ <;> rw [heq] at h <;> cases h

variable (hE : E .transport)

include hE

theorem raisesOnly_rmw (r : Byte) (p : Pin) (v : Bool) (kc : Option Byte) : RaisesOnly E (rmw r p v kc) := by
  refine raisesOnly_andThen ?_ fun _ => raisesOnly_andThen (raisesOnly_command hE _) fun _ => raisesOnly_ret _
  cases kc with
  | none => exact raisesOnly_memRead hE r
  | some k => exact raisesOnly_ret k

theorem raisesOnly_readLatch (r : Byte) : RaisesOnly E (readLatch r) :=
  raisesOnly_catchTransport (raisesOnly_andThen (raisesOnly_memRead hE r) fun _ => raisesOnly_ret _) (raisesOnly_ret none)

theorem raisesOnly_readIntReg (c : Config) (bank : Bank) : RaisesOnly E (readIntReg c bank) := by
  refine raisesOnly_andThen (raisesOnly_memRead hE _) fun flags => ?_
  split
  · exact raisesOnly_ret _
  · exact raisesOnly_andThen (raisesOnly_memRead hE _) fun _ => raisesOnly_ret _

theorem raisesOnly_pollInt (c : Config) : RaisesOnly E (pollInt c) :=
  raisesOnly_andThen (raisesOnly_memRead hE _) fun _ => raisesOnly_andThen (raisesOnly_memRead hE _) fun _ =>
    raisesOnly_ret _

end RaisesOnly

/-! ### The statuses a program answers -/

/-- The response of a command whose program ends so (R60, R146); none where it waits (R173). -/
def Ended.response : Ended Response → Option Response
  | .value r => some r
  | .raised e => some (errorResponse e)
  | .waiting => none

/-- A command adds the response of its program's end, if any, to the response port. -/
theorem conclude_responses (x : Ended Response × State) :
    (conclude x).responses = x.2.responses ++ x.1.response.toList.map responseWord := by
  rcases x with ⟨r | e | _, s⟩ <;> simp [Ended.response]

/-- However the program ends, the status it is answered with, if any, is of `S`. -/
def AnswersIn (S : List Status) (m : Bus Response) : Prop :=
  ∀ s, ∀ r ∈ (m s).1.response, r.status ∈ S

theorem interruptResponse_status (found : Option (PinIndex × Bool)) : (interruptResponse found).status = .ok := by
  cases found <;> rfl

section AnswersIn

variable {S : List Status}

theorem answersIn_raise {e : Error} (he : (errorResponse e).status ∈ S) : AnswersIn S (raise e) :=
  fun _ _ hr => Option.some.inj hr ▸ he

/-- A sequence is answered as its last part, or with an error of the parts before it. -/
theorem answersIn_andThen {α : Type} {m : Bus α} {g : α → Bus Response}
    (hm : RaisesOnly (fun e => (errorResponse e).status ∈ S) m) (hg : ∀ a, AnswersIn S (g a)) :
    AnswersIn S (andThen m g) := by
  intro s r hr
  rcases andThen_cases m g s with ⟨a, t, -, heq⟩ | ⟨e, t, hraised, heq⟩ | ⟨t, -, heq⟩ <;> rw [heq] at hr
  · exact hg a t r hr
  · obtain rfl := Option.some.inj hr
    exact hm hraised
  · exact nomatch hr

variable (hok : .ok ∈ S)

include hok

theorem answersIn_ret {r : Response} (hr : r.status = .ok) : AnswersIn S (ret r) :=
  fun _ _ h => Option.some.inj h ▸ hr ▸ hok

variable (htransport : .transport ∈ S)

include htransport

theorem answersIn_readPin (c : Config) (p : Pin) : AnswersIn S (readPin c p) :=
  answersIn_andThen (raisesOnly_memRead htransport _) fun _ => answersIn_ret hok rfl

theorem answersIn_readInput (hwrongMode : .wrongMode ∈ S) (c : Config) (dir : Word16) (p : Pin) :
    AnswersIn S (readInput c dir p) := by
  cases hmode : modeOf p dir with
  | output => exact readInput_output hmode ▸ answersIn_raise hwrongMode
  | input => exact readInput_input hmode ▸ answersIn_readPin hok htransport c p

theorem answersIn_writeOutput (hwrongMode : .wrongMode ∈ S) (c : Config) (dir : Word16) (p : Pin) (level : Level) :
    AnswersIn S (writeOutput c dir p level) := by
  cases hmode : modeOf p dir with
  | output => exact writeOutput_output level hmode ▸ answersIn_raise hwrongMode
  | input =>
    rw [writeOutput_input level hmode]
    exact answersIn_andThen (raisesOnly_readLatch htransport _) fun _ =>
      answersIn_andThen (raisesOnly_rmw htransport _ _ _ _) fun _ => answersIn_ret hok rfl

theorem answersIn_cfgPinInt (hwrongMode : .wrongMode ∈ S) (c : Config) (dir : Word16) (p : Pin) (enabled : Feature)
    (compare : Compare) (dv : Option Level) : AnswersIn S (cfgPinInt c dir p enabled compare dv) := by
  cases hmode : modeOf p dir with
  | input => exact cfgPinInt_input enabled compare dv hmode ▸ answersIn_raise hwrongMode
  | output =>
    rw [cfgPinInt_output enabled compare dv hmode]
    exact answersIn_andThen (raisesOnly_rmw htransport _ _ _ _) fun _ =>
      answersIn_andThen (raisesOnly_rmw htransport _ _ _ _) fun _ =>
      answersIn_andThen (raisesOnly_rmw htransport _ _ _ _) fun _ => answersIn_ret hok rfl

theorem answersIn_readInt (c : Config) (mirrored : Bool) (bank : Bank) : AnswersIn S (readInt c mirrored bank) := by
  refine answersIn_andThen ?_ fun found => answersIn_ret hok (interruptResponse_status found)
  cases mirrored with
  | false => exact raisesOnly_readIntReg htransport c bank
  | true =>
    refine raisesOnly_andThen (raisesOnly_readIntReg htransport c .A) fun found => ?_
    cases found with
    | some _ => exact raisesOnly_ret _
    | none => exact raisesOnly_catchTransport (raisesOnly_readIntReg htransport c .B) (raisesOnly_ret _)

theorem answersIn_clearRetry (hforcedClear : .forcedClear ∈ S) (c : Config) (n : Nat) :
    AnswersIn S (clearRetry c n) := by
  induction n with
  | zero =>
    exact answersIn_andThen (raisesOnly_memRead htransport _) fun _ =>
      answersIn_andThen (raisesOnly_memRead htransport _) fun _ => answersIn_raise hforcedClear
  | succ n ih =>
    refine answersIn_andThen (raisesOnly_pause _) fun _ =>
      answersIn_andThen (raisesOnly_pollInt htransport c) fun flags => ?_
    split
    · exact answersIn_ret hok rfl
    · exact ih

theorem answersIn_clearInt (hforcedClear : .forcedClear ∈ S) (c : Config) : AnswersIn S (clearInt c) := by
  refine answersIn_andThen (raisesOnly_pollInt htransport c) fun flags => ?_
  split
  · exact answersIn_ret hok rfl
  · exact answersIn_clearRetry hok htransport hforcedClear c _

theorem answersIn_construct (c : Config) (addr : Byte) : AnswersIn S (construct c addr) := by
  intro s r hr
  obtain ⟨u, -, ⟨w, heq⟩ | heq | heq⟩ := construct_cases c addr s <;> rw [heq] at hr
  · exact Option.some.inj hr ▸ hok
  · exact Option.some.inj hr ▸ htransport
  · exact nomatch hr

end AnswersIn

/-! ### The row of each command (R145) -/

theorem ok_mem_producedStatuses (i : Instr) : .ok ∈ producedStatuses i := by
  cases i <;> simp [producedStatuses]

/-- Every command that needs a constructed block has the two statuses of such a command in its row. -/
theorem mem_producedStatuses_of_bus {i : Instr} (hbus : runsUnconstructed i = false) :
    .transport ∈ producedStatuses i ∧ .notConstructed ∈ producedStatuses i := by
  cases i <;> simp [runsUnconstructed, producedStatuses] at hbus ⊢

/-- Every program is answered with a status of its row. -/
theorem program_answersIn (s : State) (i : Instr) : AnswersIn (producedStatuses i) (program s i) := by
  have hok := ok_mem_producedStatuses i
  have htransport (hbus : runsUnconstructed i = false) : .transport ∈ producedStatuses i :=
    (mem_producedStatuses_of_bus hbus).1
  cases i with
  | pinDecode index => exact answersIn_ret hok (by split <;> rfl)
  | pinMode pin word => exact answersIn_ret hok rfl
  | setBit byte index value => exact answersIn_ret hok rfl
  | merge16 pin word byte => exact answersIn_ret hok rfl
  | rmw r pin value known =>
    exact answersIn_andThen (raisesOnly_rmw (htransport rfl) _ _ _ _) fun _ => answersIn_ret hok rfl
  | setDirection pin mode =>
    exact answersIn_andThen (raisesOnly_rmw (htransport rfl) _ _ _ _) fun _ =>
      answersIn_andThen (raisesOnly_writeDir _) fun _ => answersIn_ret hok rfl
  | setPullUp pin level =>
    exact answersIn_andThen (raisesOnly_rmw (htransport rfl) _ _ _ _) fun _ => answersIn_ret hok rfl
  | writeOutput pin level =>
    exact answersIn_writeOutput hok (htransport rfl) (by simp [producedStatuses]) _ _ _ level
  | readInput pin => exact answersIn_readInput hok (htransport rfl) (by simp [producedStatuses]) _ _ _
  | readCurrent pin => exact answersIn_readPin hok (htransport rfl) _ _
  | cfgSysInt mirror polarity =>
    exact answersIn_andThen (raisesOnly_memRead (htransport rfl) _) fun _ =>
      answersIn_andThen (raisesOnly_command (htransport rfl) _) fun _ =>
      answersIn_andThen (raisesOnly_writeMirror mirror) fun _ => answersIn_ret hok rfl
  | cfgPinInt pin enabled compare dv =>
    exact answersIn_cfgPinInt hok (htransport rfl) (by simp [producedStatuses]) _ _ _ _ _ _
  | readIntReg bank =>
    exact answersIn_andThen (raisesOnly_readIntReg (htransport rfl) _ bank) fun found =>
      answersIn_ret hok (interruptResponse_status found)
  | readInt bank => exact answersIn_readInt hok (htransport rfl) _ _ bank
  | clearInt => exact answersIn_clearInt hok (htransport rfl) (by simp [producedStatuses]) _
  | reset => exact answersIn_andThen (raisesOnly_resetSeq (htransport rfl) _) fun _ => answersIn_ret hok rfl
  | construct addr => exact answersIn_construct hok (by simp [producedStatuses]) _ addr

/-- Settles O52: a command that may not run answers NOT_CONSTRUCTED; one that runs answers as its program ends, or waits. -/
theorem statusesOfEachCommand : Obligations.StatusesOfEachCommand := by
  intro i s t ht
  by_cases hruns : runsUnconstructed i = true ∨ s.constructed = true
  · rw [exec_of_runs i s hruns] at ht
    obtain rfl := Host.Outcome.next.inj ht
    have hstatus := program_answersIn s i s
    rw [conclude_responses, keeps_responses_program s i s]
    cases hend : (program s i s).1.response with
    | none => exact .inl (List.append_nil _)
    | some r => exact .inr ⟨responseWord r, r.status, hstatus r hend, rfl, statusField_responseWord r⟩
  · obtain ⟨hbus, hconstructed⟩ : runsUnconstructed i = false ∧ s.constructed = false := by simpa using hruns
    rw [exec_unconstructed hbus hconstructed] at ht
    obtain rfl := Host.Outcome.next.inj ht
    exact .inr ⟨_, _, (mem_producedStatuses_of_bus hbus).2, rfl, statusField_responseWord _⟩

end Sys2Proof.Machine
end

section
/-! The waits of the block (70_reset_and_hazards.md): a PAUSE of CLEAR_INT that is never answered (R173). -/

namespace Sys2Proof.Machine

/-- A retry of CLEAR_INT whose PAUSE is never answered waits there: nothing is polled after it. -/
theorem clearRetry_pauseSilent (c : Config) (n : Nat) (s : State) (hsilent : s.timer.peek 0 = false) :
    clearRetry c (n + 1) s = (.waiting, (s.ran 0 [pauseSilent c.clearPauseMs]).waited 1) :=
  andThen_waiting _ _ _ _ (pause_silent _ s hsilent)

/-- Settles O42: k retries are passed, and the PAUSE before the next is never answered. -/
theorem silentPauseLeavesBlockStuck : Obligations.SilentPauseLeavesBlockStuck := by
  intro s fa fb k hconstructed hk hpause hsilent hpoll hfirst hretry
  rw [exec_of_runs _ s (.inr hconstructed), program,
    clearInt_eq_clearRetry s fa fb k hk.le hpause hpoll hfirst hretry,
    show s.config.clearRetries - k = s.config.clearRetries - (k + 1) + 1 by omega,
    clearRetry_pauseSilent _ _ _ (by rwa [State.polled_timer_peek]), conclude_waiting, State.polled,
    State.ran_waited, State.ran_ran, State.waited_waited, Nat.add_zero]

end Sys2Proof.Machine
end
